-- ==== Sys2Proof/Word.lean ====
section
/-! DEFINITION. The two widths of the block (00_scope.md R6, R8) and the one wrapping reduction its pseudocode names (R9). -/

namespace Sys2Proof

/-- One stream byte, raw or encoded (00_scope.md R8). -/
abbrev Byte := BitVec 8

/-- A command word, a register, or the chunk integer: `WORD` = 32 bits (00_scope.md R6). -/
abbrev Word := BitVec 32

/-- `wrap32(v) = v mod 2^32` on an unbounded integer (00_scope.md R9). -/
def wrap32 (v : Nat) : Word := BitVec.ofNat 32 v

end Sys2Proof
end

