-- ==== Sys2Proof/Config.lean ====
section
/-! DEFINITION. The implementation parameters of 00_scope.md R6, each a field of `Config`, which every state carries and no step
changes (notes/assumptions/1.md). A parameter with one legal value has a type that holds that value alone. -/

namespace Sys2Proof

/-- `ALPHA_SIZE` (R6, fixed by the source), for the types that are built from it. -/
abbrev alphaSize : Nat := 85

/-- `REV_OFFSET` (R6, fixed by the source), for the contents of reverse_lookup_lut, which are fixed at design time (R62). -/
abbrev revOffset : Nat := 32

/-- A parameter whose only legal value is `v`. -/
abbrev Fixed (v : Nat) : Type := { n : Nat // n = v }

/-- The parameters of one block (R6). -/
structure Config where
  /-- `REV_SIZE`: entries of reverse_lookup_lut; legal range 94 to 224 (D6). -/
  revSize : Nat
  /-- `STRICT_ALPHABET`: whether an in-range byte outside the alphabet is an error (D7). -/
  strictAlphabet : Bool
  /-- `ALPHA_SIZE`: entries of alphabet_lut; 85, fixed by the source. -/
  alphaSize : Fixed 85 := ⟨85, rfl⟩
  /-- `REV_OFFSET`: subtracted from a byte value to index reverse_lookup_lut; 32, fixed by the source. -/
  revOffset : Fixed 32 := ⟨32, rfl⟩
  /-- `WORD`: width of the chunk integer, the width of `Word`; 32, fixed by the source. -/
  word : Fixed 32 := ⟨32, rfl⟩
  /-- `LEN_W`: width of the LEN field of a command; 28, the only legal value (D5, 92_eei_decisions.md "Open parameters"). -/
  lenW : Fixed 28 := ⟨28, rfl⟩
  /-- `LATENCY`: the time from acceptance to completion of each command that completes, in their order; any finite times (D1, I7).
  A command beyond the list has an OPEN time (`Config.openLatency`). -/
  latency : List Nat := []
  deriving DecidableEq, Repr

/-- The decided values: `REV_SIZE` = 96, `STRICT_ALPHABET` = 0, and `LATENCY` OPEN (R6). -/
def Config.decided : Config := { revSize := 96, strictAlphabet := false }

/-- `STRICT_ALPHABET` = 1 with the decided table size: the other setting the spec gives vectors for (95_test_vectors.md). -/
def Config.strict : Config := { revSize := 96, strictAlphabet := true }

/-- The legal range of `REV_SIZE` (R6). The other parameters have only legal values. -/
abbrev Config.Legal (c : Config) : Prop := 94 ≤ c.revSize ∧ c.revSize ≤ 224

/-- The OPEN part of `LATENCY` (R6, R125): a finite time that nobody can compute (notes/assumptions/14.md). -/
opaque Config.openLatency (n : Nat) : Nat

/-- The time of the `n`-th completing command, counted from 0 (R6). No step reads it: no rule depends on it (R125). -/
def Config.latencyOf (c : Config) (n : Nat) : Nat := c.latency.getD n (Config.openLatency n)

/-- The same parameters with other times. -/
def Config.withLatency (c : Config) (times : List Nat) : Config := { c with latency := times }

end Sys2Proof
end

