-- ==== Sys2Proof/Machine/State.lean ====
section
/-! DEFINITION. The state of one block instance: the record of 10_state.md R31 (the four registers), the streams and the command
port (20_memory.md R32), the transaction in progress (10_state.md R28), and two inputs: output backpressure, which the host drives
(R122), and reset (R115), which it drives by the model's choice (notes/assumptions/23.md, DESIGN CHOICE). There is no register file, program counter or byte-addressable memory (R15, R16, R32). -/

namespace Sys2Proof.Machine

/-- The outcome of one command (00_scope.md R11). Any but `ok` is the spec's `Err`. -/
inductive CmdOutcome where
  /-- `Ok(out)`: success, with the bytes the command put on the output stream. -/
  | ok (out : List Byte)
  /-- `Err(LengthError, mult, len)` (R75, R86). -/
  | lengthError (mult len : Nat)
  /-- `Err(InvalidCharacterError, byte, pos)` (R87). -/
  | invalidCharacter (byte : Byte) (pos : Nat)
  /-- `Err(BadCommand, cmd)` (R53). -/
  | badCommand (cmd : Word)
  deriving DecidableEq, Repr

/-- The internal state of a transaction in progress (10_state.md R28). -/
structure Transaction where
  /-- The command word that was accepted. -/
  word : Word
  /-- The input position i: how many input bytes have been consumed. -/
  pos : Nat
  /-- The output bytes already written; the output position j is their number. -/
  written : List Byte
  /-- The 32-bit chunk accumulator acc. -/
  acc : Word
  /-- The current chunk's digits, as the output bytes they give, still to be written in order. -/
  pending : List Byte
  /-- DECODE only: the first INVALID character met and its position (R83, R87). -/
  failed : Option (Byte × Nat)
  deriving DecidableEq, Repr

/-- One block instance and its interfaces. -/
structure State where
  /-- The parameters of this instance (00_scope.md R6); no step changes them. -/
  cfg : Config
  /-- STATUS as the last completed command left it (R18). Its BUSY bit is not stored: `readReg` computes it from `active`. -/
  status : Word
  /-- ERR_INFO (R20). -/
  errInfo : Word
  /-- OUT_COUNT (R21). -/
  outCount : Word
  /-- RESULT (R22). -/
  result : Word
  /-- Command words the host has presented and the block has not accepted, oldest first (R33). -/
  commands : List Word
  /-- Bytes the host has written to the input stream and the block has not consumed, oldest first (R35). -/
  input : List Byte
  /-- Bytes the block has put on the output stream and the host program has not yet used, oldest first (R37). -/
  output : List Byte
  /-- The transaction in progress; BUSY reads 1 exactly when there is one (R18, R25, R28). -/
  active : Option Transaction
  /-- Whether the host can take an output byte now: the backpressure of R122. -/
  outReady : Bool
  /-- The level of the reset input (R115). -/
  resetAsserted : Bool
  /-- The outcomes of the completed commands, newest first: the history R24 leaves to the model. -/
  history : List CmdOutcome
  deriving DecidableEq, Repr

/-- Faults. There are none: the block has no traps (60_exceptions.md R105), and each of its three errors is a completed command
with the error in its registers, after which the next command is accepted normally (R106). -/
inductive Fault where
  deriving DecidableEq, Repr

/-- Why the block (or the host's own action) has no step. Every one is safe: nothing happens in the model where the spec says the
block waits, or where it gives a host's action no meaning. -/
inductive Refusal where
  /-- An instruction whose arm has no meaning yet. No arm of this model raises it. Safe. -/
  | notModelled (mnemonic : String)
  /-- `step`: the block is idle and no command word is on its port; it waits (R114, R116). Safe. -/
  | waitingForCommand
  /-- `step` in a transaction: the next input byte has not been sent; the block is stuck, not faulted (R120, I15). Safe. -/
  | waitingForInput
  /-- `step` in a transaction: the host cannot take the next output byte; the block stalls (R122, I17). Safe. -/
  | waitingForHost
  /-- `step`: the reset input is asserted, and no command runs (R115). Safe. -/
  | heldInReset
  /-- `execAlphaLookup` with IDX 85 to 127: no such table entry, and no decoded word asks for one (R60, I12). Safe. -/
  | noSuchAlphabetEntry
  /-- A host action that writes an input byte no accepted or presented command owes (R120, I16). Safe. -/
  | unowedInput
  /-- A host action that presents a command or a byte while reset is asserted (R118). Safe. -/
  | hostActsInReset
  /-- A host action that takes more output bytes than there are: the host waits. Safe. -/
  | waitingForOutput
  /-- A buffer longer than LEN can express in one command (I21, R95). Safe. -/
  | lengthNotExpressible
  /-- A call of the block while an earlier command still waits for its own input or output: the command port does not accept the
  call's word, and the host waits (R33, R104). Safe. -/
  | waitingForPort
  /-- An action on an instance that does not exist (R112). Safe. -/
  | noSuchInstance
  /-- Reset of one instance alone: the instances start together at reset (R112, R115). Safe. -/
  | resetIsShared
  deriving DecidableEq, Repr

/-- A transaction at its acceptance: nothing consumed, nothing written (R28). -/
def Transaction.fresh (cmd : Word) : Transaction :=
  { word := cmd, pos := 0, written := [], acc := 0#32, pending := [], failed := none }

/-- The state right after reset (10_state.md R30, 70_reset_and_hazards.md R115, R116), with the decided parameters (R6). -/
def State.reset : State :=
  { cfg := Config.decided
    status := 0x00000000#32
    errInfo := 0x00000000#32
    outCount := 0x00000000#32
    result := 0x00000000#32
    commands := []
    input := []
    output := []
    active := none
    outReady := true
    resetAsserted := false
    history := [] }

end Sys2Proof.Machine
end

