-- ==== Sys2Proof/Machine/Operands.lean ====
section
/-! DEFINITION. The operands: a command's fields, zero-extended (30_encoding.md R50), and the byte order in which stream bytes form
the chunk integer and the chunk integer gives stream bytes (20_memory.md R38). -/

namespace Sys2Proof.Machine

/-- LEN = zext_32(cmd[27:0]) (R50). -/
def lenWord (len : BitVec 28) : Word := len.setWidth 32

/-- A byte, or a table entry, zero-extended to a register (R50, R67). -/
def byteWord (b : Byte) : Word := b.setWidth 32

/-- `{b0, b1, b2, b3}`: big-endian, b0 in bits [31:24] (R38). -/
def wordOfBytes (b0 b1 b2 b3 : Byte) : Word := b0 ++ b1 ++ b2 ++ b3

/-- The four output bytes of a word, bits [31:24] first (R38, R80). -/
def bytesOfWord (w : Word) : List Byte :=
  [w.extractLsb' 24 8, w.extractLsb' 16 8, w.extractLsb' 8 8, w.extractLsb' 0 8]

/-- One more byte shifted in below the ones before it; four of them make `wordOfBytes` (R38). -/
def shiftInByte (acc : Word) (b : Byte) : Word := acc.extractLsb' 0 24 ++ b

end Sys2Proof.Machine
end

