-- ==== Sys2Proof/Machine/Luts.lean ====
section
/-! DEFINITION. The two read-only tables (40_luts.md). alphabet_lut is R58's table, column by column; reverse_lookup_lut is derived
from it as R62 and R63 say, so that it is right for every legal REV_SIZE (R64, last paragraph). Neither has a write port (R69). -/

namespace Sys2Proof.Machine

/-- alphabet_lut, index 0 first: the five columns of R58's table (17 entries each). -/
def alphabet : List Byte :=
  [0x30#8, 0x31#8, 0x32#8, 0x33#8, 0x34#8, 0x35#8, 0x36#8, 0x37#8, 0x38#8, 0x39#8, 0x61#8, 0x62#8, 0x63#8, 0x64#8, 0x65#8, 0x66#8, 0x67#8] ++
  [0x68#8, 0x69#8, 0x6A#8, 0x6B#8, 0x6C#8, 0x6D#8, 0x6E#8, 0x6F#8, 0x70#8, 0x71#8, 0x72#8, 0x73#8, 0x74#8, 0x75#8, 0x76#8, 0x77#8, 0x78#8] ++
  [0x79#8, 0x7A#8, 0x41#8, 0x42#8, 0x43#8, 0x44#8, 0x45#8, 0x46#8, 0x47#8, 0x48#8, 0x49#8, 0x4A#8, 0x4B#8, 0x4C#8, 0x4D#8, 0x4E#8, 0x4F#8] ++
  [0x50#8, 0x51#8, 0x52#8, 0x53#8, 0x54#8, 0x55#8, 0x56#8, 0x57#8, 0x58#8, 0x59#8, 0x5A#8, 0x2E#8, 0x2D#8, 0x3A#8, 0x2B#8, 0x3D#8, 0x5E#8] ++
  [0x21#8, 0x2F#8, 0x2A#8, 0x3F#8, 0x26#8, 0x3C#8, 0x3E#8, 0x28#8, 0x29#8, 0x5B#8, 0x5D#8, 0x7B#8, 0x7D#8, 0x40#8, 0x25#8, 0x24#8, 0x23#8]

/-- alphabet_lut has `ALPHA_SIZE` = 85 entries (R58). -/
theorem alphabet_length : alphabet.length = alphaSize := by decide

/-- `ALPHA[d]`, the read port of alphabet_lut, defined for 0 <= d <= 84 and for nothing else (R60). -/
def alpha (d : Fin 85) : Byte := alphabet[d.val]'(by rw [alphabet_length]; exact d.isLt)

/-- The d in 0 to 84 with `ALPHA[d] = k + 32`, if there is one (R62). -/
def digitAt (k : Nat) : Option Nat := alphabet.findIdx? fun a => a.toNat == k + revOffset

/-- `REV_DIGIT[k]`, the DIGIT column: 0x00, the sentinel, outside the alphabet (R62). -/
def revDigit (k : Nat) : Byte := BitVec.ofNat 8 ((digitAt k).getD 0)

/-- `REV_VALID[k]`, the VALID column: k + 32 is in the alphabet (R63). -/
def revValid (k : Nat) : Bool := (digitAt k).isSome

/-- `in_range(c) = (c >= 32) and (c - 32 < REV_SIZE)` (R61). -/
def inRange (cfg : Config) (c : Byte) : Bool :=
  decide (cfg.revOffset.val ≤ c.toNat) && decide (c.toNat - cfg.revOffset.val < cfg.revSize)

end Sys2Proof.Machine
end

