-- ==== Sys2Proof/Syntax.lean ====
section
/-! DEFINITION. The commands of the block: one constructor per row of spec/opcode_table.json (30_encoding.md R46), with the
operand field each format has (R47 format L, R48 format A, R49 format B). A word that no row selects is no `Instr`: it decodes to
a `BadReason` (Decode.lean) and is executed by `Machine.execBad`. -/

namespace Sys2Proof

/-- One legal command. -/
inductive Instr where
  /-- ENCODE, format L: `LEN` raw bytes in (R47, R74). -/
  | encode (len : BitVec 28)
  /-- DECODE, format L: `LEN` encoded characters in (R47, R85). -/
  | decode (len : BitVec 28)
  /-- ALPHA_LOOKUP, format A: the digit `IDX` (R48, R67). -/
  | alphaLookup (idx : BitVec 7)
  /-- REV_LOOKUP, format B: the character `BYTE` (R49, R68). -/
  | revLookup (byte : Byte)
  deriving DecidableEq, Repr

end Sys2Proof
end

