-- ==== Sys2Proof/WellFormed.lean ====
section
/-! DEFINITION. Which terms of `Instr` are commands of the block. The only check beyond the field widths is the one 30_encoding.md
R48 makes: IDX at most 84. Every LEN (R47) and every BYTE (R49) is legal. -/

namespace Sys2Proof

/-- Legality of the operand (R47, R48, R49). -/
def Instr.wf : Instr → Bool
  | .encode _ => true
  | .decode _ => true
  | .alphaLookup idx => decide (idx.toNat ≤ 84)
  | .revLookup _ => true

end Sys2Proof
end

