-- ==== Sys2Proof/Decode.lean ====
section
/-! DEFINITION. The command decoder of 30_encoding.md R51, total on 32-bit words, and the encoder written from the same formats
(R45, R47, R48, R49, R52). A word arrives whole on the command port (R45), so no byte order is involved. -/

namespace Sys2Proof

/-- Why a word decodes to BAD: the cases of 30_encoding.md R53, the two of OP 0x3 apart. -/
inductive BadReason where
  /-- OP is 0x0 or 0x5 to 0xF. -/
  | reservedOp
  /-- OP = 0x3 and ARG[27:7] is not 0. -/
  | alphaReservedBits
  /-- OP = 0x3, ARG[27:7] = 0 and ARG[6:0] is 85 or more. -/
  | alphaIndexTooLarge
  /-- OP = 0x4 and ARG[27:8] is not 0. -/
  | revReservedBits
  deriving DecidableEq, Repr

/-- OP, bits [31:28] of a command word (R45). -/
def opField (cmd : Word) : BitVec 4 := cmd.extractLsb' 28 4

/-- ARG, bits [27:0] of a command word (R45). -/
def argField (cmd : Word) : BitVec 28 := cmd.extractLsb' 0 28

/-- Format A: ARG[27:7] must be 0 and IDX = ARG[6:0] at most 84 (R48). -/
def decodeAlpha (arg : BitVec 28) : Except BadReason Instr :=
  if arg.extractLsb' 7 21 ≠ 0#21 then .error .alphaReservedBits
  else if 84 < (arg.extractLsb' 0 7).toNat then .error .alphaIndexTooLarge
  else .ok (.alphaLookup (arg.extractLsb' 0 7))

/-- Format B: ARG[27:8] must be 0, and BYTE = ARG[7:0] is any byte (R49). -/
def decodeRev (arg : BitVec 28) : Except BadReason Instr :=
  if arg.extractLsb' 8 20 ≠ 0#20 then .error .revReservedBits
  else .ok (.revLookup (arg.extractLsb' 0 8))

/-- Decoding (R51): every word is one of the four commands or BAD, rejected by name. -/
def decode (cmd : Word) : Except BadReason Instr :=
  if opField cmd = 0x1#4 then .ok (.encode (argField cmd))
  else if opField cmd = 0x2#4 then .ok (.decode (argField cmd))
  else if opField cmd = 0x3#4 then decodeAlpha (argField cmd)
  else if opField cmd = 0x4#4 then decodeRev (argField cmd)
  else .error .reservedOp

/-- The OP value of a command (R46). -/
def Instr.op : Instr → BitVec 4
  | .encode _ => 0x1#4
  | .decode _ => 0x2#4
  | .alphaLookup _ => 0x3#4
  | .revLookup _ => 0x4#4

/-- The ARG value of a command: its operand, with the reserved bits of formats A and B 0 (R47, R48, R49). -/
def Instr.arg : Instr → BitVec 28
  | .encode len => len
  | .decode len => len
  | .alphaLookup idx => 0#21 ++ idx
  | .revLookup byte => 0#20 ++ byte

/-- The word of a command: OP in the more significant bits (R45, R57). -/
def encode (i : Instr) : Word := i.op ++ i.arg

/-- How many bytes of the input stream a word's command consumes, in every outcome (20_memory.md R36): LEN for ENCODE and
DECODE, none for the lookups and for BAD. -/
def inputNeed (cmd : Word) : Nat :=
  match decode cmd with
  | .ok (.encode len) => len.toNat
  | .ok (.decode len) => len.toNat
  | .ok (.alphaLookup _) => 0
  | .ok (.revLookup _) => 0
  | .error _ => 0

/-- The host's view of the decoder: the low `nbits` bits of `w` are a command word's, the bits above them 0. -/
def decodeTableWord (nbits w : Nat) : Option Instr :=
  match decode (BitVec.ofNat 32 (w % 2 ^ nbits)) with
  | .ok i => some i
  | .error _ => none

end Sys2Proof
end

