-- ==== Sys2Proof/Machine/Flags.lean ====
section
/-! DEFINITION. STATUS: the one constructor every command writes it through (10_state.md R18), its fields, its ERR_KIND codes
(R19), and the word the host reads while a command runs (R25, R27). -/

namespace Sys2Proof.Machine

/-- ERR_KIND = 0: the command succeeded (R19). -/
def kindOk : BitVec 2 := 0#2
/-- ERR_KIND = 1: LengthError (R19). -/
def kindLength : BitVec 2 := 1#2
/-- ERR_KIND = 2: InvalidCharacterError (R19). -/
def kindInvalidChar : BitVec 2 := 2#2
/-- ERR_KIND = 3: BadCommand (R19). -/
def kindBadCommand : BitVec 2 := 3#2

/-- `mkSTATUS(kind, byte, mult, op) = {op, 8'b0, mult, byte, 5'b0, 1'b0, kind}` (R18). -/
def mkSTATUS (kind : BitVec 2) (byte : Byte) (mult op : BitVec 4) : Word :=
  op ++ 0#8 ++ mult ++ byte ++ 0#5 ++ 0#1 ++ kind

/-- STATUS[1:0], ERR_KIND (R18). -/
def errKind (st : Word) : BitVec 2 := st.extractLsb' 0 2
/-- STATUS[2], BUSY (R18). -/
def busyBit (st : Word) : Bool := st.getLsbD 2
/-- STATUS[15:8], ERR_BYTE (R18). -/
def errByte (st : Word) : Byte := st.extractLsb' 8 8
/-- STATUS[19:16], ERR_MULT (R18). -/
def errMult (st : Word) : BitVec 4 := st.extractLsb' 16 4
/-- STATUS[31:28], LAST_OP (R18). -/
def lastOp (st : Word) : BitVec 4 := st.extractLsb' 28 4

/-- STATUS with its BUSY bit at the given level and every other bit as stored (R25, R27). -/
def withBusy (busy : Bool) (st : Word) : Word := st.extractLsb' 3 29 ++ BitVec.ofBool busy ++ st.extractLsb' 0 2

end Sys2Proof.Machine
end

