-- ==== Sys2Proof/Machine/Ops.lean ====
section
/-! DEFINITION. The operations every command shares: what a completion writes (10_state.md R24, R27), raising an error, which is a
completion and no trap (60_exceptions.md R105), accepting a command (20_memory.md R33), running a transaction at once where nothing
makes it wait (10_state.md R31), and the register read port (R17, R34). -/

namespace Sys2Proof.Machine

/-- Everything a command writes at its completion: the four registers, all of them every time (R24), its output bytes (R37) and
its outcome (00_scope.md R11). -/
structure Completion where
  status : Word
  errInfo : Word
  outCount : Word
  result : Word
  out : List Byte
  outcome : CmdOutcome
  deriving DecidableEq, Repr

/-- OUT_COUNT: the number of bytes the command put on the output stream, as an unsigned 32-bit count (R21). -/
def countWord (out : List Byte) : Word := BitVec.ofNat 32 out.length

/-- Success: ERR_KIND = 0, ERR_INFO = 0, the other diagnostics 0 (R18, R20, R24). -/
def Completion.success (op : BitVec 4) (result : Word) (out : List Byte) : Completion :=
  { status := mkSTATUS kindOk 0#8 0#4 op
    errInfo := 0#32
    outCount := countWord out
    result := result
    out := out
    outcome := .ok out }

/-- Raising an error (R99, R105): ERR_KIND and its diagnostics in STATUS, the length, position or word in ERR_INFO (R20), RESULT 0,
and OUT_COUNT the bytes already written, which are not a result (R87). Nothing is saved, no mode changes and control goes nowhere;
there is no return from it (R106). -/
def Completion.raise (kind : BitVec 2) (byte : Byte) (mult op : BitVec 4) (info : Word) (out : List Byte)
    (outcome : CmdOutcome) : Completion :=
  { status := mkSTATUS kind byte mult op
    errInfo := info
    outCount := countWord out
    result := 0#32
    out := out
    outcome := outcome }

/-- `raise LengthError(mult, len)`: no output, ERR_INFO = LEN (R75, R86, R100). -/
def lengthError (mult op : BitVec 4) (len : BitVec 28) : Completion :=
  .raise kindLength 0#8 mult op (lenWord len) [] (.lengthError mult.toNat len.toNat)

/-- `raise InvalidCharacterError(byte, pos)`, after the bytes of the chunks before it (R87, R101). -/
def invalidCharacter (op : BitVec 4) (byte : Byte) (pos : Nat) (out : List Byte) : Completion :=
  .raise kindInvalidChar byte 0#4 op (BitVec.ofNat 32 pos) out (.invalidCharacter byte pos)

/-- `raise BadCommand()`: LAST_OP = cmd[31:28] and ERR_INFO the whole word (R53, R102). -/
def badCommand (cmd : Word) : Completion :=
  .raise kindBadCommand 0#8 0#4 (opField cmd) cmd [] (.badCommand cmd)

/-- The completion of a command: its register writes take effect together and BUSY goes to 0 (R25, R27). -/
def State.retire (c : Completion) (s : State) : State :=
  { s with
    status := c.status
    errInfo := c.errInfo
    outCount := c.outCount
    result := c.result
    active := none
    history := c.outcome :: s.history }

/-- A whole transaction: `n` input bytes consumed (R36), the output bytes written in order (R37), then the completion (R42). -/
def State.finish (n : Nat) (c : Completion) (s : State) : State :=
  State.retire c { s with input := s.input.drop n, output := s.output ++ c.out }

/-- Acceptance of a command whose transaction goes on: BUSY goes to 1 and no register changes (R25, R27, R33). -/
def State.start (cmd : Word) (s : State) : State :=
  { s with active := some (Transaction.fresh cmd) }

/-- Nothing makes the transaction wait: all `n` input bytes are there (R120), and the host takes output, if there is any (R122). -/
def State.canFinish (n : Nat) (run : List Byte → Completion) (s : State) : Bool :=
  decide (n ≤ s.input.length) && (s.outReady || (run (s.input.take n)).out.isEmpty)

/-- A command that consumes `n` input bytes and completes with what `run` gives for them. Where nothing makes it wait it is one
step (R31). Otherwise it is accepted and in progress, BUSY reads 1, and its bytes move one at a time (Stream.lean). -/
def transact (cmd : Word) (n : Nat) (run : List Byte → Completion) (s : State) : Host.Outcome State Fault Refusal :=
  if s.canFinish n run then .next (s.finish n (run (s.input.take n))) else .next (s.start cmd)

/-- ID: ALPHA_SIZE, REV_SIZE and STRICT_ALPHABET (R23). -/
def idWord (cfg : Config) : Word :=
  0#15 ++ BitVec.ofBool cfg.strictAlphabet ++ BitVec.ofNat 8 cfg.revSize ++ BitVec.ofNat 8 cfg.alphaSize.val

/-- `LATENCY` of the command in progress, or of the next one (00_scope.md R6): the time from its acceptance to its completion. Nothing
else of the model reads it (R125). -/
def State.latency (s : State) : Nat := s.cfg.latencyOf s.history.length

/-- BUSY (R18, R25). -/
def State.busy (s : State) : Bool := s.active.isSome

/-- The register read port (R17, R34): addresses 0x5 to 0xF read 0. While a command is in progress, STATUS.BUSY reads 1 and all
else reads as it was before the command was accepted (R27). -/
def readReg (s : State) (raddr : BitVec 4) : Word :=
  if raddr = 0x0#4 then withBusy s.busy s.status
  else if raddr = 0x1#4 then s.errInfo
  else if raddr = 0x2#4 then s.outCount
  else if raddr = 0x3#4 then s.result
  else if raddr = 0x4#4 then idWord s.cfg
  else 0#32

end Sys2Proof.Machine
end

