-- ==== Sys2Proof/Machine/Decoder.lean ====
section
/-! DEFINITION. The decoder datapath and the DECODE command (42_decoder.md). -/

namespace Sys2Proof.Machine

/-- `dec_char`: the digit of a character, or INVALID (`none`) (R78, R79). -/
def decChar (cfg : Config) (c : Byte) : Option Byte :=
  if inRange cfg c = false then none
  else if cfg.strictAlphabet = true ∧ revValid (c.toNat - cfg.revOffset.val) = false then none
  else some (revDigit (c.toNat - cfg.revOffset.val))

/-- `wrap32(acc * 85 + r)` (R80, R81). -/
def accumulate (acc : Word) (r : Byte) : Word := wrap32 (acc.toNat * 85 + r.toNat)

/-- The result of `dec_chunk` (R80). -/
inductive ChunkResult where
  /-- `Word(acc)`. -/
  | word (w : Word)
  /-- `Bad(byte, p)`: the first INVALID character and its position. -/
  | bad (byte : Byte) (p : Nat)
  deriving DecidableEq, Repr

/-- The loop of `dec_chunk` from position `p` with accumulator `acc`: characters in order, the first INVALID one ends it
(R80, R83). -/
def decChunkFrom (cfg : Config) (p : Nat) (acc : Word) : List Byte → ChunkResult
  | [] => .word acc
  | c :: cs =>
    match decChar cfg c with
    | none => .bad c p
    | some r => decChunkFrom cfg (p + 1) (accumulate acc r) cs

/-- `dec_chunk` (R80). -/
def decChunk (cfg : Config) (c0 c1 c2 c3 c4 : Byte) : ChunkResult := decChunkFrom cfg 0 0#32 [c0, c1, c2, c3, c4]

/-- What the chunk loop of R85 leaves: the bytes written, and the offending byte with its position if a chunk failed. -/
structure DecodeRun where
  out : List Byte
  bad : Option (Byte × Nat)
  deriving DecidableEq, Repr

/-- The chunk loop of R85 on the characters from position `pos` on. A failing chunk writes nothing and ends the loop (R87). -/
def decodeBytes (cfg : Config) (pos : Nat) : List Byte → DecodeRun
  | c0 :: c1 :: c2 :: c3 :: c4 :: rest =>
    match decChunk cfg c0 c1 c2 c3 c4 with
    | .bad c p => { out := [], bad := some (c, pos + p) }
    | .word w =>
      { out := bytesOfWord w ++ (decodeBytes cfg (pos + 5) rest).out
        bad := (decodeBytes cfg (pos + 5) rest).bad }
  | _ => { out := [], bad := none }

/-- How a DECODE whose length is right ends: R85 on success, R87 on an INVALID character. -/
def decodeEnd (out : List Byte) (bad : Option (Byte × Nat)) : Completion :=
  match bad with
  | none => .success 0x2#4 0#32 out
  | some (c, pos) => invalidCharacter 0x2#4 c pos out

/-- What DECODE(LEN) does with its LEN characters: the length check of R86 before any character is examined, then R85 or R87. -/
def decodeCompletion (cfg : Config) (len : BitVec 28) (chars : List Byte) : Completion :=
  if len.toNat % 5 ≠ 0 then lengthError 5#4 0x2#4 len
  else decodeEnd (decodeBytes cfg 0 chars).out (decodeBytes cfg 0 chars).bad

/-- DECODE(LEN) (R85, R86, R87). -/
def execDecode (len : BitVec 28) (s : State) : Host.Outcome State Fault Refusal :=
  transact (encode (.decode len)) len.toNat (decodeCompletion s.cfg len) s

end Sys2Proof.Machine
end

