-- ==== Sys2Proof/Machine/Encoder.lean ====
section
/-! DEFINITION. The encoder datapath and the ENCODE command (41_encoder.md). -/

namespace Sys2Proof.Machine

/-- One base-85 digit, `v mod 85` (R70). -/
def digit (v : Nat) : Fin 85 := ⟨v % 85, Nat.mod_lt v (by decide)⟩

/-- The five digits of a chunk value, d[0] first, filled from the last position by repeated division (R70). -/
def encDigits (v : Nat) : List (Fin 85) :=
  [digit (v / 85 / 85 / 85 / 85), digit (v / 85 / 85 / 85), digit (v / 85 / 85), digit (v / 85), digit v]

/-- The five characters of a chunk value (R70). -/
def encWord (w : Word) : List Byte := (encDigits w.toNat).map alpha

/-- `enc_chunk` (R70). -/
def encChunk (b0 b1 b2 b3 : Byte) : List Byte := encWord (wordOfBytes b0 b1 b2 b3)

/-- The chunk loop of R74, chunks in order from the start of the transaction (R39). -/
def encodeBytes : List Byte → List Byte
  | b0 :: b1 :: b2 :: b3 :: rest => encChunk b0 b1 b2 b3 ++ encodeBytes rest
  | _ => []

/-- What ENCODE(LEN) does with its LEN input bytes: the length check of R75 before any byte is examined, then R74. -/
def encodeCompletion (len : BitVec 28) (bytes : List Byte) : Completion :=
  if len.toNat % 4 ≠ 0 then lengthError 4#4 0x1#4 len
  else .success 0x1#4 0#32 (encodeBytes bytes)

/-- ENCODE(LEN) (R74, R75). -/
def execEncode (len : BitVec 28) (s : State) : Host.Outcome State Fault Refusal :=
  transact (encode (.encode len)) len.toNat (encodeCompletion len) s

end Sys2Proof.Machine
end

