-- ==== Sys2Proof/Machine/Lookup.lean ====
section
/-! DEFINITION. The two lookup commands (40_luts.md R67, R68) and the execution of an illegal word (30_encoding.md R53). None of
them consumes input or produces output, so each completes in its step. -/

namespace Sys2Proof.Machine

/-- ALPHA_LOOKUP(IDX) (R67). Decoding guarantees IDX <= 84; entries 85 to 127 do not exist (R60). -/
def execAlphaLookup (idx : BitVec 7) (s : State) : Host.Outcome State Fault Refusal :=
  if h : idx.toNat < 85 then .next (s.finish 0 (.success 0x3#4 (byteWord (alpha ⟨idx.toNat, h⟩)) []))
  else .refused .noSuchAlphabetEntry

/-- RESULT of REV_LOOKUP: [9] IN_RANGE, [8] VALID, [7:0] DIGIT; 0 out of range (R68). STRICT_ALPHABET does not change it. -/
def revResult (cfg : Config) (byte : Byte) : Word :=
  if inRange cfg byte then
    0#22 ++ 1#1 ++ BitVec.ofBool (revValid (byte.toNat - cfg.revOffset.val)) ++ revDigit (byte.toNat - cfg.revOffset.val)
  else 0#32

/-- REV_LOOKUP(BYTE) (R68). -/
def execRevLookup (byte : Byte) (s : State) : Host.Outcome State Fault Refusal :=
  .next (s.finish 0 (.success 0x4#4 (revResult s.cfg byte) []))

/-- BAD(cmd): an illegal word runs, as an error (R53, R54, R102). -/
def execBad (cmd : Word) (s : State) : Host.Outcome State Fault Refusal :=
  .next (s.finish 0 (badCommand cmd))

end Sys2Proof.Machine
end

