-- ==== Sys2Proof/Machine/Dispatch.lean ====
section
/-! DEFINITION. Which meaning each command has. -/

namespace Sys2Proof.Machine

def exec (i : Instr) (s : State) : Host.Outcome State Fault Refusal :=
  match i with
  | .encode len => Sys2Proof.Machine.execEncode len s
  | .decode len => Sys2Proof.Machine.execDecode len s
  | .alphaLookup idx => Sys2Proof.Machine.execAlphaLookup idx s
  | .revLookup byte => Sys2Proof.Machine.execRevLookup byte s

end Sys2Proof.Machine
end

