-- ==== Sys2Proof/Machine/Stream.lean ====
section
/-! DEFINITION. The block one byte at a time: how a transaction that is in progress moves (10_state.md R28, 20_memory.md R35, R37,
R42), where it waits (70_reset_and_hazards.md R120, R122) and how it completes (10_state.md R27). `step` uses it for a command that
could not finish at once; run from acceptance to completion it gives what the one-step command gives (10_state.md R31). -/

namespace Sys2Proof.Machine

/-- The next byte of an ENCODE whose LEN is a multiple of 4: the fourth of a chunk makes its five characters (R70, R74). -/
def Transaction.feedEncode (b : Byte) (t : Transaction) : Transaction :=
  if t.pos % 4 = 3 then
    { t with pos := t.pos + 1, acc := 0#32, pending := encWord (shiftInByte t.acc b) }
  else { t with pos := t.pos + 1, acc := shiftInByte t.acc b }

/-- The next character of a DECODE whose LEN is a multiple of 5: the fifth of a chunk makes its four bytes; an INVALID one ends
the decoding, and what follows it is discarded without examination (R80, R83, R87). -/
def Transaction.feedDecode (cfg : Config) (c : Byte) (t : Transaction) : Transaction :=
  if t.failed.isSome then { t with pos := t.pos + 1 }
  else
    match decChar cfg c with
    | none => { t with pos := t.pos + 1, failed := some (c, t.pos) }
    | some r =>
      if t.pos % 5 = 4 then
        { t with pos := t.pos + 1, acc := 0#32, pending := bytesOfWord (accumulate t.acc r) }
      else { t with pos := t.pos + 1, acc := accumulate t.acc r }

/-- One input byte consumed. After a wrong length it is discarded unexamined (R75, R86). -/
def Transaction.feed (cfg : Config) (b : Byte) (t : Transaction) : Transaction :=
  match decode t.word with
  | .ok (.encode len) => if len.toNat % 4 ≠ 0 then { t with pos := t.pos + 1 } else t.feedEncode b
  | .ok (.decode len) => if len.toNat % 5 ≠ 0 then { t with pos := t.pos + 1 } else t.feedDecode cfg b
  | .ok (.alphaLookup _) => t
  | .ok (.revLookup _) => t
  | .error _ => t

/-- The end of a transaction that has consumed all its input and written all its output: its registers are written (R27). -/
def completeActive (t : Transaction) (s : State) : Host.Outcome State Fault Refusal :=
  match decode t.word with
  | .ok (.encode len) =>
    .next (s.retire (if len.toNat % 4 ≠ 0 then lengthError 4#4 0x1#4 len else .success 0x1#4 0#32 t.written))
  | .ok (.decode len) =>
    .next (s.retire (if len.toNat % 5 ≠ 0 then lengthError 5#4 0x2#4 len else decodeEnd t.written t.failed))
  | .ok (.alphaLookup idx) => execAlphaLookup idx s
  | .ok (.revLookup byte) => execRevLookup byte s
  | .error _ => execBad t.word s

/-- One move of a transaction in progress: write the next output byte of the current chunk when the host can take it (R122);
else consume the next input byte the command is owed (R35, R36, R120); else complete (R27, R42). -/
def tick (t : Transaction) (s : State) : Host.Outcome State Fault Refusal :=
  match t.pending with
  | b :: bs =>
    if s.outReady then
      .next { s with output := s.output ++ [b], active := some { t with pending := bs, written := t.written ++ [b] } }
    else .refused .waitingForHost
  | [] =>
    if t.pos < inputNeed t.word then
      match s.input with
      | [] => .refused .waitingForInput
      | b :: rest => .next { s with input := rest, active := some (t.feed s.cfg b) }
    else completeActive t s

/-- The block's step at byte level: a command is accepted in one move, and then moves byte by byte to its completion. -/
def byteStep (s : State) : Host.Outcome State Fault Refusal :=
  if s.resetAsserted then .refused .heldInReset
  else
    match s.active with
    | some t => tick t s
    | none =>
      match s.commands with
      | [] => .refused .waitingForCommand
      | cmd :: later => .next (State.start cmd { s with commands := later })

/-- `k` byte-level steps, ending at the first that is not enabled. -/
def byteRun : Nat → State → Host.Outcome State Fault Refusal
  | 0, s => .next s
  | k + 1, s =>
    match byteStep s with
    | .next s' => byteRun k s'
    | .fault r => .fault r
    | .refused r => .refused r

end Sys2Proof.Machine
end

