-- ==== Sys2Proof/Machine/Step.lean ====
section
/-! DEFINITION. The step of the block. Commands are accepted one at a time, in the order the host presents them, and only while none
is in progress (20_memory.md R33, R42). The block has no program counter and fetches nothing (10_state.md R16). -/

namespace Sys2Proof.Machine

/-- Acceptance and execution of the word at the head of the command port: a legal command has its meaning, any other word runs as
BAD (30_encoding.md R51, R53). -/
def runCommand (cmd : Word) (s : State) : Host.Outcome State Fault Refusal :=
  match decode cmd with
  | .ok i => exec i s
  | .error _ => execBad cmd s

/-- One step. Idle: the next command, whole where nothing makes it wait (10_state.md R31). In a transaction: its next byte. -/
def step (s : State) : Host.Outcome State Fault Refusal :=
  if s.resetAsserted then .refused .heldInReset
  else
    match s.active with
    | some t => tick t s
    | none =>
      match s.commands with
      | [] => .refused .waitingForCommand
      | cmd :: later => runCommand cmd { s with commands := later }

/-- The state in which the next step accepts and runs the word whose low `nbits` bits are those of `w`: it stands first on the
command port, reset is released and nothing is in progress. Its input bytes are the host's to send and are left as they are. -/
def State.withFetchWord (s : State) (nbits w : Nat) : State :=
  { s with
    commands := [BitVec.ofNat 32 (w % 2 ^ nbits)]
    active := none
    resetAsserted := false }

end Sys2Proof.Machine
end

