-- ==== Sys2Proof/Machine/HostActions.lean ====
section
/-! DEFINITION. What the outside can do to the block: present command words, send and take stream bytes, read registers, hold the
output stream back, and drive reset, which the model counts among the host's actions (notes/assumptions/23.md, DESIGN CHOICE)
(20_memory.md R32 to R37, 70_reset_and_hazards.md R115 to R123), and the host programs written
with these actions (30_encoding.md R57). An action that breaks a host duty has no meaning and is refused (R118, R120). -/

namespace Sys2Proof.Machine

/-- How many input bytes the accepted and the presented commands still owe (R36, R120). -/
def State.owed (s : State) : Nat :=
  (match s.active with
    | some t => inputNeed t.word - t.pos
    | none => 0) + (s.commands.map inputNeed).sum

/-- Reset asserted (R115): the registers at their reset values, the transaction abandoned with no register update, no word on the
command port, and the bytes the abandoned commands had not consumed gone. Output already written stays written. -/
def State.abandon (s : State) : State :=
  { State.reset with
    cfg := s.cfg
    output := s.output
    outReady := s.outReady
    resetAsserted := true
    history := s.history }

/-- The word the command port accepts in the next step, if it accepts one: the first one presented, and only while no command is in
progress (R33). -/
def State.acceptedWord (s : State) : Option Word :=
  if s.resetAsserted then none
  else
    match s.active with
    | some _ => none
    | none => s.commands.head?

/-- One host action. `issue`, `send`, `recv` and `read` are the lines of a host program (R57), and `recvAll` is the
pseudo-instructions' `RECV` of every output byte. The spec does not say which agent drives the block's reset input (R115), and R13's
list of the host's actions has no reset: that it is a host action is the model's choice (notes/assumptions/23.md, DESIGN CHOICE). -/
inductive HostAction where
  /-- Present a command word, legal or not: `ENCODE`, `DECODE`, `ALPHA_LOOKUP`, `REV_LOOKUP` or `.cmd`. Presenting is always
  possible; while a command is in progress the word waits, and its acceptance is a step of the block (R33). -/
  | issue (cmd : Word)
  /-- `SEND`: write the bytes to the input stream, in order. -/
  | send (bytes : List Byte)
  /-- `RECV n`: take `n` bytes from the output stream. -/
  | recv (n : Nat)
  /-- `RECV` of every output byte: all that are on the output stream now, what earlier commands left there too, without waiting for
  more. R57 gives no count; that is the model's choice (notes/assumptions/18.md, DESIGN CHOICE). -/
  | recvAll
  /-- `READ`: read the register at an address. -/
  | read (raddr : BitVec 4)
  /-- Look whether a presented word still waits at the command port: the model's own form of seeing the port accept (R104, R113;
  notes/assumptions/13.md and 19.md, DESIGN CHOICE). -/
  | pollPort
  /-- Begin or stop taking output bytes: the backpressure of R122. -/
  | setReady (ready : Bool)
  /-- Assert the reset input (R115), driven by the host in this model (notes/assumptions/23.md, DESIGN CHOICE). -/
  | assertReset
  /-- Release the reset input (R115), driven by the host in this model (notes/assumptions/23.md, DESIGN CHOICE). -/
  | releaseReset
  deriving DecidableEq, Repr

/-- What a host action does to the block. A register read has no side effect (R34). -/
def hostAct (a : HostAction) (s : State) : Host.Outcome State Fault Refusal :=
  match a with
  | .issue cmd =>
    if s.resetAsserted then .refused .hostActsInReset else .next { s with commands := s.commands ++ [cmd] }
  | .send bytes =>
    if s.resetAsserted then .refused .hostActsInReset
    else if s.input.length + bytes.length ≤ s.owed then .next { s with input := s.input ++ bytes }
    else .refused .unowedInput
  | .recv n => if n ≤ s.output.length then .next { s with output := s.output.drop n } else .refused .waitingForOutput
  | .recvAll => .next { s with output := [] }
  | .read _ => .next s
  | .pollPort => .next s
  | .setReady ready => .next { s with outReady := ready }
  | .assertReset => .next s.abandon
  | .releaseReset => .next { s with resetAsserted := false }

/-- What a host can see (60_exceptions.md R113): the registers (the lookups show in RESULT), the output stream, and the command
port's acceptance, from which it learns that the command before has completed (R104). -/
inductive Observed where
  /-- The bytes taken from the output stream. -/
  | bytes (bs : List Byte)
  /-- The value of the register read. -/
  | register (raddr : BitVec 4) (value : Word)
  /-- The command port accepts a word. -/
  | accepted (cmd : Word)
  /-- Whether no presented word waits at the command port: each has been accepted, or reset has dropped it (R115). That a look after
  such a reset shows a free port is the model's choice (notes/assumptions/19.md, DESIGN CHOICE). -/
  | portFree (free : Bool)
  deriving DecidableEq, Repr

/-- What the host sees of an action taken in a state. -/
def observe (a : HostAction) (s : State) : List Observed :=
  match a with
  | .recv n => [.bytes (s.output.take n)]
  | .recvAll => [.bytes s.output]
  | .read raddr => [.register raddr (readReg s raddr)]
  | .pollPort => [.portFree s.commands.isEmpty]
  | .issue _ => []
  | .send _ => []
  | .setReady _ => []
  | .assertReset => []
  | .releaseReset => []

/-- What the host sees of a step of the block taken in a state: the acceptance of a word, in the model's own form
(notes/assumptions/13.md, DESIGN CHOICE). A word presented while a command is in
progress is accepted only after that command's completion (R33, R104). -/
def stepObserved (s : State) : List Observed :=
  match s.acceptedWord with
  | some cmd => [.accepted cmd]
  | none => []

/-- Run the block until it has no step, at most `k` of them. -/
def settle : Nat → State → State
  | 0, s => s
  | k + 1, s =>
    match step s with
    | .next s' => settle k s'
    | .fault _ => s
    | .refused _ => s

/-- What the host sees of the steps `settle` takes. -/
def settleObserved : Nat → State → List Observed
  | 0, _ => []
  | k + 1, s =>
    match step s with
    | .next s' => stepObserved s ++ settleObserved k s'
    | .fault _ => []
    | .refused _ => []

/-- Enough steps for the block to come to rest: every output byte of the current chunk, an input byte and at most the five output
bytes it completes, an acceptance and a completion per command presented, and the completion of the one in progress. -/
def settleFuel (s : State) : Nat :=
  6 * s.input.length + 2 * s.commands.length +
    match s.active with
    | some t => t.pending.length + 1
    | none => 0

/-- The block after every step it can take without the host. -/
def State.rest (s : State) : State := settle (settleFuel s) s

/-- A host program (R57): after each action the block runs until it waits, which R125's fairness allows a host to count on. -/
def runProgram : List HostAction → State → Host.Outcome (State × List Observed) Fault Refusal
  | [], s => .next (s, [])
  | a :: rest, s =>
    match hostAct a s with
    | .next s' =>
      match runProgram rest s'.rest with
      | .next (t, seen) => .next (t, observe a s ++ settleObserved (settleFuel s') s' ++ seen)
      | .fault r => .fault r
      | .refused r => .refused r
    | .fault r => .fault r
    | .refused r => .refused r

/-- The block's part of the end of a host program's run (R124): no command in progress or waiting, and every output byte taken.
The third condition, the host's final register reads, is the program's own. Two readings are the model's choices, DESIGN CHOICE:
"taken" here means used by the host's program, where R122's "taken" means put out (notes/assumptions/20.md); and a run whose last
command reset has abandoned has ended, in reset too (notes/assumptions/21.md). -/
def State.runEnded (s : State) : Bool := !s.busy && s.commands.isEmpty && s.output.isEmpty

/-- The expansion of `ENC` and `DEC` (R57): the command for the number of bytes, the bytes, and all output. No command expresses more
bytes than LEN counts (R47, I21), and R57 gives such a line no expansion; that it is `none`, so that nothing is issued, is the
model's choice (notes/assumptions/22.md, DESIGN CHOICE). -/
def streamProgram (cfg : Config) (command : BitVec 28 → Instr) (bytes : List Byte) : Option (List HostAction) :=
  if bytes.length < 2 ^ cfg.lenW.val then
    some [.issue (encode (command (BitVec.ofNat 28 bytes.length))), .send bytes, .recvAll]
  else none

/-- The pseudo-instruction `ENC` (R57); too many bytes for LEN: notes/assumptions/22.md. -/
def encProgram (cfg : Config) (bytes : List Byte) : Option (List HostAction) := streamProgram cfg .encode bytes

/-- The pseudo-instruction `DEC` (R57); too many bytes for LEN: notes/assumptions/22.md. -/
def decProgram (cfg : Config) (text : List Byte) : Option (List HostAction) := streamProgram cfg .decode text

end Sys2Proof.Machine
end

