-- ==== Sys2Proof/Machine/Instances.lean ====
section
/-! DEFINITION. Several blocks side by side (00_scope.md R14, 60_exceptions.md R112): each has a state, registers and streams of its
own, they share nothing that changes, there are no signals between them, and one reset starts them together. -/

namespace Sys2Proof.Machine

/-- What can happen in a system of instances. Reset is of all of them (notes/assumptions/17.md), driven by the host in this model
(notes/assumptions/23.md, DESIGN CHOICE). -/
inductive SystemAction where
  /-- The `k`-th instance takes a step. -/
  | step (k : Nat)
  /-- The host acts on the `k`-th instance. -/
  | host (k : Nat) (a : HostAction)
  /-- Reset is asserted, for every instance. -/
  | assertReset
  /-- Reset is released, for every instance. -/
  | releaseReset
  deriving DecidableEq, Repr

/-- The `k`-th instance moves by `f`, and no other instance moves. -/
def actOn (k : Nat) (f : State → Host.Outcome State Fault Refusal) (system : List State) :
    Host.Outcome (List State) Fault Refusal :=
  match system[k]? with
  | none => .refused .noSuchInstance
  | some s =>
    match f s with
    | .next s' => .next (system.set k s')
    | .fault r => .fault r
    | .refused r => .refused r

/-- The `k`-th instance takes a step. -/
def stepInstance (k : Nat) (system : List State) : Host.Outcome (List State) Fault Refusal := actOn k step system

/-- A host action on one instance. Reset is not one: it reaches every instance together (R112). -/
def instanceAct (a : HostAction) (s : State) : Host.Outcome State Fault Refusal :=
  match a with
  | .issue _ => hostAct a s
  | .send _ => hostAct a s
  | .recv _ => hostAct a s
  | .recvAll => hostAct a s
  | .read _ => hostAct a s
  | .pollPort => hostAct a s
  | .setReady _ => hostAct a s
  | .assertReset => .refused .resetIsShared
  | .releaseReset => .refused .resetIsShared

/-- The reset input is asserted for every instance (R112, R115). -/
def resetInstances (system : List State) : List State := system.map State.abandon

/-- The reset input is released for every instance, and all of them start (R112, R116). -/
def releaseInstances (system : List State) : List State := system.map fun s => { s with resetAsserted := false }

/-- Instances with these parameters right after reset. -/
def systemReset (cfgs : List Config) : List State := cfgs.map fun cfg => { State.reset with cfg := cfg }

/-- One action of the system. -/
def systemAct (a : SystemAction) (system : List State) : Host.Outcome (List State) Fault Refusal :=
  match a with
  | .step k => stepInstance k system
  | .host k act => actOn k (instanceAct act) system
  | .assertReset => .next (resetInstances system)
  | .releaseReset => .next (releaseInstances system)

end Sys2Proof.Machine
end

