-- ==== Sys2Proof/Machine/Padding.lean ====
section
/-! DEFINITION. The host's padding layer (45_host_padding.md): software outside the block that uses only its ENCODE and DECODE
commands (R90) and adds no state (R98). -/

namespace Sys2Proof.Machine

/-- `need = 4 - (len(raw) mod 4)`, 1 to 4 (R91). -/
def padNeed (raw : List Byte) : Nat := 4 - raw.length % 4

/-- `Pad` (R91): a new buffer, raw followed by `need` bytes of value `need`. -/
def pad (raw : List Byte) : List Byte := raw ++ List.replicate (padNeed raw) (BitVec.ofNat 8 (padNeed raw))

/-- `Trim` (R93): only the last byte is examined; it never fails. -/
def trim (padded : List Byte) : List Byte :=
  match padded.getLast? with
  | none => padded
  | some last =>
    if 4 < last.toNat ∨ padded.length < last.toNat then padded
    else padded.take (padded.length - last.toNat)

/-- One call of a block at rest. The host waits where an earlier command keeps the port, so that the command that runs is the
call's own, its input bytes are the call's own (R35), and the outcome is its command's (00_scope.md R11). Every output byte of the
call is taken; what the host had not used of earlier commands' output stays. -/
def callAtRest (cmd : Word) (bytes : List Byte) (s : State) : Host.Outcome (State × CmdOutcome) Fault Refusal :=
  if s.busy || !s.commands.isEmpty then .refused .waitingForPort
  else if !s.input.isEmpty then .refused .unowedInput
  else
    match hostAct (.issue cmd) s with
    | .fault r => .fault r
    | .refused r => .refused r
    | .next s1 =>
      match hostAct (.send bytes) s1 with
      | .fault r => .fault r
      | .refused r => .refused r
      | .next s2 =>
        match step s2 with
        | .fault r => .fault r
        | .refused r => .refused r
        | .next t =>
          if t.busy then .refused (if bytes.length < inputNeed cmd then .waitingForInput else .waitingForHost)
          else
            match t.history with
            | [] => .refused .waitingForOutput
            | o :: _ => .next ({ t with output := s.output }, o)

/-- One call of the block. Commands presented before it complete first, in their order (20_memory.md R33, R42): the host waits until
the port accepts the call's word (60_exceptions.md R104). -/
def call (cmd : Word) (bytes : List Byte) (s : State) : Host.Outcome (State × CmdOutcome) Fault Refusal :=
  callAtRest cmd bytes s.rest

/-- `PaddedEncode` (R95): ENCODE of Pad(raw), for a buffer whose padded length fits LEN. -/
def paddedEncode (raw : List Byte) (s : State) : Host.Outcome (State × CmdOutcome) Fault Refusal :=
  if (pad raw).length ≤ 2 ^ s.cfg.lenW.val - 4 then
    call (encode (.encode (BitVec.ofNat 28 (pad raw).length))) (pad raw) s
  else .refused .lengthNotExpressible

/-- `Trim` on success, the error itself on failure (R96, R121). -/
def trimOutcome : CmdOutcome → CmdOutcome
  | .ok raw => .ok (trim raw)
  | .lengthError mult len => .lengthError mult len
  | .invalidCharacter byte pos => .invalidCharacter byte pos
  | .badCommand cmd => .badCommand cmd

/-- `PaddedDecode` (R96): DECODE, then Trim unless it failed. -/
def paddedDecode (text : List Byte) (s : State) : Host.Outcome (State × CmdOutcome) Fault Refusal :=
  if text.length < 2 ^ s.cfg.lenW.val then
    match call (encode (.decode (BitVec.ofNat 28 text.length))) text s with
    | .next (t, o) => .next (t, trimOutcome o)
    | .fault r => .fault r
    | .refused r => .refused r
  else .refused .lengthNotExpressible

end Sys2Proof.Machine
end

