-- ==== Sys2Proof/Safety.lean ====
section
/-! DEFINITION. What a sound state of the block is, in the terms the statements use. -/

namespace Sys2Proof.Machine

/-- The result registers describe one command (10_state.md R18, R20, R22, R24, 60_exceptions.md R99): reserved bits and the stored
BUSY bit are 0, each diagnostic is 0 unless its ERR_KIND names it, an error other than InvalidCharacterError has no output, any
error has RESULT 0, and RESULT holds at most the ten bits of a REV_LOOKUP answer (R68). -/
structure State.RegistersCoherent (s : State) : Prop where
  reserved_low : s.status.extractLsb' 2 6 = 0#6
  reserved_high : s.status.extractLsb' 20 8 = 0#8
  errByte_only_invalid : errKind s.status ≠ kindInvalidChar → errByte s.status = 0#8
  errMult_only_length : errKind s.status ≠ kindLength → errMult s.status = 0#4
  length_mult : errKind s.status = kindLength →
    (lastOp s.status = 0x1#4 ∧ errMult s.status = 4#4) ∨ (lastOp s.status = 0x2#4 ∧ errMult s.status = 5#4)
  invalid_is_decode : errKind s.status = kindInvalidChar → lastOp s.status = 0x2#4
  bad_word : errKind s.status = kindBadCommand → opField s.errInfo = lastOp s.status
  ok_info : errKind s.status = kindOk → s.errInfo = 0#32
  no_output : errKind s.status = kindLength ∨ errKind s.status = kindBadCommand → s.outCount = 0#32
  error_result : errKind s.status ≠ kindOk → s.result = 0#32
  result_width : s.result.toNat < 1024
  count_bound : s.outCount.toNat ≤ 335544315

/-- The positions of a transaction in progress agree with each other (10_state.md R28, 20_memory.md R37): chunk by chunk, five
output bytes per four of an ENCODE, four per five of a DECODE up to a failing chunk, and none after a wrong length. -/
def Transaction.Coherent (t : Transaction) : Prop :=
  t.pos ≤ inputNeed t.word ∧
  match decode t.word with
  | .ok (.encode len) =>
    t.failed = none ∧
    t.written.length + t.pending.length = if len.toNat % 4 = 0 then 5 * (t.pos / 4) else 0
  | .ok (.decode len) =>
    if len.toNat % 5 = 0 then
      match t.failed with
      | none => t.written.length + t.pending.length = 4 * (t.pos / 5)
      | some (_, p) => p < t.pos ∧ t.pending = [] ∧ t.written.length = 4 * (p / 5)
    else t.failed = none ∧ t.written.length + t.pending.length = 0
  | .ok (.alphaLookup _) => t.failed = none ∧ t.written.length + t.pending.length = 0
  | .ok (.revLookup _) => t.failed = none ∧ t.written.length + t.pending.length = 0
  | .error _ => t.failed = none ∧ t.written.length + t.pending.length = 0

/-- The invariant of the block: legal parameters (00_scope.md R6), coherent registers and transaction, and nothing going on while
reset is asserted (70_reset_and_hazards.md R115). -/
structure State.Inv (s : State) : Prop where
  legal : s.cfg.Legal
  registers : s.RegistersCoherent
  transaction : ∀ t, s.active = some t → t.Coherent
  quiet_in_reset : s.resetAsserted = true → s.active = none ∧ s.commands = []

/-- The host's framing duty (70_reset_and_hazards.md R120): no byte has been sent that no command owes. -/
def State.Framed (s : State) : Prop := s.input.length ≤ s.owed

/-- The state with other command times (00_scope.md R6): the block another LATENCY makes of it. -/
def State.withLatency (s : State) (times : List Nat) : State := { s with cfg := s.cfg.withLatency times }

/-- Nothing in progress, nothing presented, nothing in transit, reset released and the host taking output: the state in which a
host makes a call (70_reset_and_hazards.md R116, R122, R123). -/
structure State.Quiet (s : State) : Prop where
  idle : s.active = none
  noCommand : s.commands = []
  noInput : s.input = []
  released : s.resetAsserted = false
  ready : s.outReady = true

/-- The instances of a system are in reset together or out of it together (60_exceptions.md R112). -/
def StartedTogether (system : List State) : Prop :=
  ∀ s ∈ system, ∀ t ∈ system, s.resetAsserted = t.resetAsserted

/-- Input byte `i` of the command at the head of the input stream, `MemRead(IN, i, 1)` (20_memory.md R35). -/
def State.byteIn (s : State) (i : Nat) : Byte := s.input.getD i 0#8

/-- The exact value of five digits, before any wrap (42_decoder.md R81). -/
def exactValue (d0 d1 d2 d3 d4 : Nat) : Nat := d0 * 85 ^ 4 + d1 * 85 ^ 3 + d2 * 85 ^ 2 + d3 * 85 + d4

/-- The ERR_KIND that belongs to an outcome (10_state.md R19, 60_exceptions.md R99). -/
def CmdOutcome.kind : CmdOutcome → BitVec 2
  | .ok _ => kindOk
  | .lengthError _ _ => kindLength
  | .invalidCharacter _ _ => kindInvalidChar
  | .badCommand _ => kindBadCommand

end Sys2Proof.Machine
end

