-- ==== Sys2Proof/Certificates/Slice0/Obligations.lean ====
section
/-! DEFINITION. The statements for the provers. Each docstring names the rule of spec/ it formalises. -/

open Sys2Proof Sys2Proof.Machine

/-! ### Reset and registers -/

/-- R30, R17: what the host reads after reset, and that nothing is in progress. -/
def Obligations.RegistersReadZeroAfterReset : Prop :=
  State.reset.active = none ∧
  readReg State.reset 0x0#4 = 0x00000000#32 ∧ readReg State.reset 0x1#4 = 0x00000000#32 ∧
  readReg State.reset 0x2#4 = 0x00000000#32 ∧ readReg State.reset 0x3#4 = 0x00000000#32 ∧
  readReg State.reset 0x4#4 = 0x00006055#32

/-- R17, R34: the register map; addresses 0x5 to 0xF read 0; a read has no side effect; and no host action but reset changes a
register. -/
def Obligations.RegisterReadPortMap : Prop :=
  ∀ s : State,
    (s.active = none → busyBit s.status = false → readReg s 0x0#4 = s.status) ∧
    readReg s 0x1#4 = s.errInfo ∧ readReg s 0x2#4 = s.outCount ∧ readReg s 0x3#4 = s.result ∧
    readReg s 0x4#4 = idWord s.cfg ∧
    (∀ a : BitVec 4, 5 ≤ a.toNat → readReg s a = 0x00000000#32) ∧
    (∀ a : BitVec 4, hostAct (.read a) s = .next s) ∧
    ∀ (act : HostAction) (t : State), act ≠ .assertReset → hostAct act s = .next t → ∀ a : BitVec 4, readReg t a = readReg s a

/-- R23, R6: the fields of ID, for every legal configuration; its value under the decided one; and no step and no host action
changes it. -/
def Obligations.IdHoldsTheParameters : Prop :=
  (∀ s : State, s.cfg.Legal →
    ((readReg s 0x4#4).extractLsb' 0 8).toNat = 85 ∧
    ((readReg s 0x4#4).extractLsb' 8 8).toNat = s.cfg.revSize ∧
    (readReg s 0x4#4).getLsbD 16 = s.cfg.strictAlphabet ∧
    (readReg s 0x4#4).extractLsb' 17 15 = 0#15) ∧
  idWord Config.decided = 0x00006055#32 ∧
  ∀ s t : State, (step s = .next t ∨ byteStep s = .next t ∨ ∃ a, hostAct a s = .next t) →
    t.cfg = s.cfg ∧ readReg t 0x4#4 = readReg s 0x4#4

/-- R18: the fields of STATUS, reserved bits and BUSY included. -/
def Obligations.StatusWordFields : Prop :=
  ∀ (kind : BitVec 2) (byte : Byte) (mult op : BitVec 4),
    errKind (mkSTATUS kind byte mult op) = kind ∧
    busyBit (mkSTATUS kind byte mult op) = false ∧
    (mkSTATUS kind byte mult op).extractLsb' 3 5 = 0#5 ∧
    errByte (mkSTATUS kind byte mult op) = byte ∧
    errMult (mkSTATUS kind byte mult op) = mult ∧
    (mkSTATUS kind byte mult op).extractLsb' 20 8 = 0#8 ∧
    lastOp (mkSTATUS kind byte mult op) = op

/-- R27, R25: while a command is in progress every register reads as before, but for STATUS.BUSY, which reads 1; and BUSY reads 1
in a state exactly when a transaction is in progress. That LAST_OP too reads as before is the model's reading of R27 against R18's
"last command accepted" (notes/assumptions/3.md, DEDUCED). -/
def Obligations.RegistersHoldTheirValuesWhileBusy : Prop :=
  (∀ s : State, busyBit (readReg s 0x0#4) = s.active.isSome) ∧
  ∀ s t : State, (step s = .next t ∨ byteStep s = .next t) → t.active.isSome = true →
    readReg t 0x0#4 = withBusy true (readReg s 0x0#4) ∧
    ∀ a : BitVec 4, a ≠ 0x0#4 → readReg t a = readReg s a

/-! ### Encoding -/

/-- R45 to R52: every legal command, at every operand value, is the decoding of its word. -/
def Obligations.DecodeOfEncodeIsTheCommand : Prop :=
  ∀ i : Instr, i.wf = true → decode (encode i) = .ok i

/-- R45 to R52, the other direction: what a word decodes to is legal, and the word is its encoding. -/
def Obligations.EncodeOfDecodeIsTheWord : Prop :=
  ∀ (cmd : Word) (i : Instr), decode cmd = .ok i → i.wf = true ∧ encode i = cmd

/-- R52: the opcode map as match and mask, with the operand each pattern gives; every word no row selects is BAD. -/
def Obligations.OpcodeMapMatchAndMask : Prop :=
  ∀ cmd : Word,
    (∀ len, decode cmd = .ok (.encode len) ↔ cmd &&& 0xF0000000#32 = 0x10000000#32 ∧ len = cmd.extractLsb' 0 28) ∧
    (∀ len, decode cmd = .ok (.decode len) ↔ cmd &&& 0xF0000000#32 = 0x20000000#32 ∧ len = cmd.extractLsb' 0 28) ∧
    (∀ idx, decode cmd = .ok (.alphaLookup idx) ↔
      cmd &&& 0xFFFFFF80#32 = 0x30000000#32 ∧ (cmd.extractLsb' 0 7).toNat ≤ 84 ∧ idx = cmd.extractLsb' 0 7) ∧
    (∀ byte, decode cmd = .ok (.revLookup byte) ↔ cmd &&& 0xFFFFFF00#32 = 0x40000000#32 ∧ byte = cmd.extractLsb' 0 8) ∧
    ((∃ r, decode cmd = .error r) ↔
      cmd &&& 0xF0000000#32 ≠ 0x10000000#32 ∧ cmd &&& 0xF0000000#32 ≠ 0x20000000#32 ∧
      ¬ (cmd &&& 0xFFFFFF80#32 = 0x30000000#32 ∧ (cmd.extractLsb' 0 7).toNat ≤ 84) ∧
      cmd &&& 0xFFFFFF00#32 ≠ 0x40000000#32)

/-- R53 (first half), R48, R49: the three cases in which a word decodes to BAD, and no others. -/
def Obligations.IllegalWordsDecodeToBad : Prop :=
  ∀ cmd : Word, (∃ r, decode cmd = .error r) ↔
    (opField cmd = 0x0#4 ∨ 5 ≤ (opField cmd).toNat) ∨
    (opField cmd = 0x3#4 ∧ ((argField cmd).extractLsb' 7 21 ≠ 0#21 ∨ 85 ≤ ((argField cmd).extractLsb' 0 7).toNat)) ∨
    (opField cmd = 0x4#4 ∧ (argField cmd).extractLsb' 8 20 ≠ 0#20)

/-- Words written out from 30_encoding.md R57's expansions and 95_test_vectors.md, one a family at least. -/
def Obligations.SampleWordsDecode : Prop :=
  decode 0x10000008#32 = .ok (.encode 8#28) ∧ decode 0x1FFFFFFF#32 = .ok (.encode 268435455#28) ∧
  decode 0x2000000A#32 = .ok (.decode 10#28) ∧ decode 0x3000002B#32 = .ok (.alphaLookup 43#7) ∧
  decode 0x30000055#32 = .error .alphaIndexTooLarge ∧ decode 0x30000080#32 = .error .alphaReservedBits ∧
  decode 0x40000023#32 = .ok (.revLookup 0x23#8) ∧ decode 0x40000100#32 = .error .revReservedBits ∧
  decode 0x00000000#32 = .error .reservedOp ∧ decode 0xFFFFFFFF#32 = .error .reservedOp

/-! ### Tables -/

/-- R59: alphabet_lut's entries are distinct, lie in 0x21 (entry 68) to 0x7D (entry 80) and have bit 7 clear; and the eleven bytes
from 0x20 to 0x7F that are no entry. -/
def Obligations.AlphabetEntriesDistinctPrintable : Prop :=
  (∀ d e : Fin 85, alpha d = alpha e → d = e) ∧
  (∀ d : Fin 85, 0x21 ≤ (alpha d).toNat ∧ (alpha d).toNat ≤ 0x7D ∧ (alpha d).getLsbD 7 = false) ∧
  alpha 68 = 0x21#8 ∧ alpha 80 = 0x7D#8 ∧
  ∀ c : Byte, 0x20 ≤ c.toNat → c.toNat ≤ 0x7F →
    ((∀ d : Fin 85, alpha d ≠ c) ↔
      c ∈ [0x20#8, 0x22#8, 0x27#8, 0x2C#8, 0x3B#8, 0x5C#8, 0x5F#8, 0x60#8, 0x7C#8, 0x7E#8, 0x7F#8])

/-- R62, R63: the DIGIT and VALID columns at every index, derived from alphabet_lut; DIGIT is at most 84. -/
def Obligations.ReverseTableDerivedFromAlphabet : Prop :=
  ∀ k : Nat,
    (∀ d : Fin 85, (alpha d).toNat = k + 32 → (revDigit k).toNat = d.val ∧ revValid k = true) ∧
    ((∀ d : Fin 85, (alpha d).toNat ≠ k + 32) → revDigit k = 0x00#8 ∧ revValid k = false) ∧
    (revDigit k).toNat ≤ 84

/-- R65: the two tables are inverse on the alphabet, for every legal REV_SIZE. -/
def Obligations.TablesInverseOnAlphabet : Prop :=
  ∀ (cfg : Config) (d : Fin 85), cfg.Legal →
    inRange cfg (alpha d) = true ∧ (revDigit ((alpha d).toNat - 32)).toNat = d.val ∧
    revValid ((alpha d).toNat - 32) = true

/-- R64: both columns for bytes 0x20 to 0x7F as the spec prints them, and every later entry 0x00 and not valid. -/
def Obligations.ReverseTableListing : Prop :=
  (List.range 96).map revDigit =
    [0x00#8, 0x44#8, 0x00#8, 0x54#8, 0x53#8, 0x52#8, 0x48#8, 0x00#8, 0x4B#8, 0x4C#8, 0x46#8, 0x41#8, 0x00#8, 0x3F#8, 0x3E#8, 0x45#8] ++
    [0x00#8, 0x01#8, 0x02#8, 0x03#8, 0x04#8, 0x05#8, 0x06#8, 0x07#8, 0x08#8, 0x09#8, 0x40#8, 0x00#8, 0x49#8, 0x42#8, 0x4A#8, 0x47#8] ++
    [0x51#8, 0x24#8, 0x25#8, 0x26#8, 0x27#8, 0x28#8, 0x29#8, 0x2A#8, 0x2B#8, 0x2C#8, 0x2D#8, 0x2E#8, 0x2F#8, 0x30#8, 0x31#8, 0x32#8] ++
    [0x33#8, 0x34#8, 0x35#8, 0x36#8, 0x37#8, 0x38#8, 0x39#8, 0x3A#8, 0x3B#8, 0x3C#8, 0x3D#8, 0x4D#8, 0x00#8, 0x4E#8, 0x43#8, 0x00#8] ++
    [0x00#8, 0x0A#8, 0x0B#8, 0x0C#8, 0x0D#8, 0x0E#8, 0x0F#8, 0x10#8, 0x11#8, 0x12#8, 0x13#8, 0x14#8, 0x15#8, 0x16#8, 0x17#8, 0x18#8] ++
    [0x19#8, 0x1A#8, 0x1B#8, 0x1C#8, 0x1D#8, 0x1E#8, 0x1F#8, 0x20#8, 0x21#8, 0x22#8, 0x23#8, 0x4F#8, 0x00#8, 0x50#8, 0x00#8, 0x00#8] ∧
  (∀ k : Nat, k < 96 →
    (revValid k = false ↔ k ∈ [0x00, 0x02, 0x07, 0x0C, 0x1B, 0x3C, 0x3F, 0x40, 0x5C, 0x5E, 0x5F])) ∧
  ∀ k : Nat, 96 ≤ k → revDigit k = 0x00#8 ∧ revValid k = false

/-! ### Lookups and illegal words -/

/-- R67, R53: ALPHA_LOOKUP's word; it completes for every IDX up to 84 with the table entry in RESULT, and changes nothing else; a
word with IDX 85 to 127, or with ARG[27:7] not 0, is BAD. That exec refuses the ill-formed IDX 85 to 127 is the model's form of R60
and I12, which give those entries no meaning (notes/assumptions/12.md, DEDUCED); no word decodes to them. -/
def Obligations.AlphaLookupReturnsTheEntry : Prop :=
  (∀ (idx : BitVec 7) (s : State),
    encode (.alphaLookup idx) = 0x30000000#32 ||| idx.setWidth 32 ∧
    (∀ h : idx.toNat < 85, exec (.alphaLookup idx) s = .next { s with
      status := 0x30000000#32, errInfo := 0#32, outCount := 0#32, result := (alpha ⟨idx.toNat, h⟩).setWidth 32,
      active := none, history := .ok [] :: s.history }) ∧
    (85 ≤ idx.toNat → exec (.alphaLookup idx) s = .refused .noSuchAlphabetEntry)) ∧
  ∀ cmd : Word, opField cmd = 0x3#4 →
    85 ≤ (cmd.extractLsb' 0 7).toNat ∨ cmd.extractLsb' 7 21 ≠ 0#21 → ∃ r, decode cmd = .error r

/-- R68: REV_LOOKUP's word; it completes for every byte, in either STRICT_ALPHABET setting, with IN_RANGE, VALID and DIGIT in RESULT
(0 out of range), and changes nothing else; a word with ARG[27:8] not 0 is BAD. -/
def Obligations.RevLookupReportsTheTable : Prop :=
  (∀ (byte : Byte) (s : State), encode (.revLookup byte) = 0x40000000#32 ||| byte.setWidth 32 ∧ ∃ r : Word,
    exec (.revLookup byte) s = .next { s with
      status := 0x40000000#32, errInfo := 0#32, outCount := 0#32, result := r,
      active := none, history := .ok [] :: s.history } ∧
    (inRange s.cfg byte = false → r = 0x00000000#32) ∧
    (inRange s.cfg byte = true →
      r.extractLsb' 10 22 = 0#22 ∧ r.getLsbD 9 = true ∧ r.getLsbD 8 = revValid (byte.toNat - 32) ∧
      r.extractLsb' 0 8 = revDigit (byte.toNat - 32))) ∧
  ∀ cmd : Word, opField cmd = 0x4#4 → cmd.extractLsb' 8 20 ≠ 0#20 → ∃ r, decode cmd = .error r

/-- R53, R102, R54: a word of each of the three illegal kinds decodes to BAD and runs as it. It consumes nothing, produces nothing,
and leaves the whole word in ERR_INFO; the block is idle and the later words stay on the port. -/
def Obligations.IllegalWordRunsAsBadCommand : Prop :=
  ∀ (s : State) (cmd : Word) (later : List Word),
    s.resetAsserted = false → s.active = none → s.commands = cmd :: later →
    (opField cmd = 0x0#4 ∨ 5 ≤ (opField cmd).toNat) ∨
      (opField cmd = 0x3#4 ∧ ((argField cmd).extractLsb' 7 21 ≠ 0#21 ∨ 85 ≤ ((argField cmd).extractLsb' 0 7).toNat)) ∨
      (opField cmd = 0x4#4 ∧ (argField cmd).extractLsb' 8 20 ≠ 0#20) →
    (∃ r, decode cmd = .error r) ∧
    step s = .next { s with
      commands := later, status := mkSTATUS 3#2 0#8 0#4 (cmd.extractLsb' 28 4), errInfo := cmd,
      outCount := 0#32, result := 0#32, history := .badCommand cmd :: s.history }

/-! ### The encoder and ENCODE -/

/-- R38: big-endian, both ways. -/
def Obligations.ChunkBytesAreBigEndian : Prop :=
  (∀ b0 b1 b2 b3 : Byte, (wordOfBytes b0 b1 b2 b3).toNat =
    b0.toNat * 2 ^ 24 + b1.toNat * 2 ^ 16 + b2.toNat * 2 ^ 8 + b3.toNat ∧
    bytesOfWord (wordOfBytes b0 b1 b2 b3) = [b0, b1, b2, b3]) ∧
  ∀ (w : Word) (b0 b1 b2 b3 : Byte), bytesOfWord w = [b0, b1, b2, b3] → wordOfBytes b0 b1 b2 b3 = w

/-- R71: the five digits are the exact base-85 representation of the chunk value, the first is at most 82, and the largest value has
the digits 82, 23, 54, 12, 0, which are `%nSc0`. -/
def Obligations.DigitsRepresentTheChunkExactly : Prop :=
  (∀ w : Word, ∃ d0 d1 d2 d3 d4 : Fin 85,
    encWord w = [alpha d0, alpha d1, alpha d2, alpha d3, alpha d4] ∧
    w.toNat = d0.val * 85 ^ 4 + d1.val * 85 ^ 3 + d2.val * 85 ^ 2 + d3.val * 85 + d4.val ∧ d0.val ≤ 82) ∧
  encWord 0xFFFFFFFF#32 = [alpha 82, alpha 23, alpha 54, alpha 12, alpha 0] ∧
  encWord 0xFFFFFFFF#32 = [0x25#8, 0x6E#8, 0x53#8, 0x63#8, 0x30#8]

/-- R73: different chunk values give different characters. -/
def Obligations.EncoderIsInjective : Prop :=
  ∀ v w : Word, encWord v = encWord w → v = w

/-- R74: ENCODE's word; ENCODE of a length that is a multiple of 4 completes: five characters per chunk, chunks in order, each of its own four
bytes; LEN bytes consumed; the registers as the rule gives them; nothing else changed. -/
def Obligations.EncodeWritesFiveCharactersPerChunk : Prop :=
  (∀ len : BitVec 28, encode (.encode len) = 0x10000000#32 ||| len.setWidth 32) ∧
  ∀ (len : BitVec 28) (s : State),
    len.toNat % 4 = 0 → len.toNat ≤ s.input.length → (s.outReady = true ∨ len = 0#28) →
    ∃ out : List Byte,
      exec (.encode len) s = .next { s with
        status := 0x10000000#32, errInfo := 0#32, outCount := BitVec.ofNat 32 (5 * (len.toNat / 4)), result := 0#32,
        input := s.input.drop len.toNat, output := s.output ++ out, active := none, history := .ok out :: s.history } ∧
      out.length = 5 * (len.toNat / 4) ∧
      ∀ k : Nat, k < len.toNat / 4 →
        (out.drop (5 * k)).take 5 =
          encChunk (s.byteIn (4 * k)) (s.byteIn (4 * k + 1)) (s.byteIn (4 * k + 2)) (s.byteIn (4 * k + 3))

/-- R75: ENCODE of any other length consumes its LEN bytes unexamined, writes no output, and reports LengthError; nothing else
changes. -/
def Obligations.EncodeReportsLengthError : Prop :=
  ∀ (len : BitVec 28) (s : State), len.toNat % 4 ≠ 0 → len.toNat ≤ s.input.length →
    exec (.encode len) s = .next { s with
      status := 0x10040001#32, errInfo := len.setWidth 32, outCount := 0#32, result := 0#32,
      input := s.input.drop len.toNat, active := none, history := .lengthError 4 len.toNat :: s.history }

/-- R72: every character enc_chunk emits, and so every byte ENCODE puts on the output stream, is a character of the alphabet. -/
def Obligations.EncodeOutputStaysInTheAlphabet : Prop :=
  (∀ b0 b1 b2 b3 c : Byte, c ∈ encChunk b0 b1 b2 b3 → ∃ d : Fin 85, c = alpha d) ∧
  ∀ (len : BitVec 28) (s t : State), exec (.encode len) s = .next t →
    ∃ out : List Byte, t.output = s.output ++ out ∧ ∀ c ∈ out, ∃ d : Fin 85, c = alpha d

/-- R76: the length of the output; output chunk k is made of input chunk k alone; and ENCODE of a concatenation. -/
def Obligations.EncodeOfConcatenation : Prop :=
  (∀ raw : List Byte, raw.length % 4 = 0 → (encodeBytes raw).length = raw.length * 5 / 4) ∧
  (∀ (raw : List Byte) (k : Nat), k < raw.length / 4 →
    ((encodeBytes raw).drop (5 * k)).take 5 =
      encChunk (raw.getD (4 * k) 0#8) (raw.getD (4 * k + 1) 0#8) (raw.getD (4 * k + 2) 0#8) (raw.getD (4 * k + 3) 0#8)) ∧
  ∀ a b : List Byte, a.length % 4 = 0 → b.length % 4 = 0 → encodeBytes (a ++ b) = encodeBytes a ++ encodeBytes b

/-! ### The decoder and DECODE -/

/-- R78, R79, R61: what dec_char gives for every byte, in each STRICT_ALPHABET setting, for every legal REV_SIZE. -/
def Obligations.DecCharFollowsStrictAlphabet : Prop :=
  ∀ (cfg : Config) (c : Byte), cfg.Legal →
    (c.toNat < 32 ∨ 32 + cfg.revSize ≤ c.toNat → decChar cfg c = none) ∧
    (∀ d : Fin 85, c = alpha d → decChar cfg c = some (BitVec.ofNat 8 d.val)) ∧
    (32 ≤ c.toNat → c.toNat < 32 + cfg.revSize → (∀ d : Fin 85, c ≠ alpha d) →
      decChar cfg c = if cfg.strictAlphabet then none else some 0#8)

/-- R81: wrapping at every step is wrapping once at the end; a chunk overflows exactly when its digits exceed those of `%nSc0`; the
rule's two examples, `%nSc1` and `#####`; and no chunk that comes from the encoder overflows. -/
def Obligations.AccumulatorWrapsModulo32Bits : Prop :=
  (∀ (cfg : Config) (c0 c1 c2 c3 c4 r0 r1 r2 r3 r4 : Byte),
    decChar cfg c0 = some r0 → decChar cfg c1 = some r1 → decChar cfg c2 = some r2 → decChar cfg c3 = some r3 →
    decChar cfg c4 = some r4 →
    decChunk cfg c0 c1 c2 c3 c4 =
      .word (BitVec.ofNat 32 (exactValue r0.toNat r1.toNat r2.toNat r3.toNat r4.toNat))) ∧
  (∀ d0 d1 d2 d3 d4 : Fin 85,
    2 ^ 32 ≤ exactValue d0.val d1.val d2.val d3.val d4.val ↔
      [82, 23, 54, 12, 0] < [d0.val, d1.val, d2.val, d3.val, d4.val]) ∧
  (∀ cfg : Config, cfg.Legal →
    decChunk cfg 0x25#8 0x6E#8 0x53#8 0x63#8 0x31#8 = .word 0x00000000#32 ∧
    decChunk cfg 0x23#8 0x23#8 0x23#8 0x23#8 0x23#8 = .word 0x08780EC4#32) ∧
  ∀ (w : Word) (d0 d1 d2 d3 d4 : Fin 85), encWord w = [alpha d0, alpha d1, alpha d2, alpha d3, alpha d4] →
    exactValue d0.val d1.val d2.val d3.val d4.val < 2 ^ 32

/-- R80, R83: a chunk gives a word exactly when none of its characters is INVALID; else it reports the first INVALID one and where it
stands, whatever follows it. -/
def Obligations.ChunkReportsFirstInvalidCharacter : Prop :=
  ∀ (cfg : Config) (c0 c1 c2 c3 c4 : Byte),
    ((∃ w, decChunk cfg c0 c1 c2 c3 c4 = .word w) ↔ ∀ q, q < 5 → decChar cfg ([c0, c1, c2, c3, c4].getD q 0#8) ≠ none) ∧
    ∀ p, p < 5 → decChar cfg ([c0, c1, c2, c3, c4].getD p 0#8) = none →
      (∀ q, q < p → decChar cfg ([c0, c1, c2, c3, c4].getD q 0#8) ≠ none) →
      decChunk cfg c0 c1 c2 c3 c4 = .bad ([c0, c1, c2, c3, c4].getD p 0#8) p

/-- R85: DECODE's word; DECODE of a length that is a multiple of 5, with no INVALID character, completes: four bytes per chunk, most significant
first, chunks in order, each of its own five characters; LEN characters consumed; the registers as the rule gives them; nothing
else changed. -/
def Obligations.DecodeWritesFourBytesPerChunk : Prop :=
  (∀ len : BitVec 28, encode (.decode len) = 0x20000000#32 ||| len.setWidth 32) ∧
  ∀ (len : BitVec 28) (s : State),
    len.toNat % 5 = 0 → len.toNat ≤ s.input.length → (s.outReady = true ∨ len = 0#28) →
    (∀ i, i < len.toNat → decChar s.cfg (s.byteIn i) ≠ none) →
    ∃ out : List Byte,
      exec (.decode len) s = .next { s with
        status := 0x20000000#32, errInfo := 0#32, outCount := BitVec.ofNat 32 (4 * (len.toNat / 5)), result := 0#32,
        input := s.input.drop len.toNat, output := s.output ++ out, active := none, history := .ok out :: s.history } ∧
      out.length = 4 * (len.toNat / 5) ∧
      ∀ k : Nat, k < len.toNat / 5 → ∃ w : Word,
        decChunk s.cfg (s.byteIn (5 * k)) (s.byteIn (5 * k + 1)) (s.byteIn (5 * k + 2)) (s.byteIn (5 * k + 3))
          (s.byteIn (5 * k + 4)) = .word w ∧
        (out.drop (4 * k)).take 4 = [w.extractLsb' 24 8, w.extractLsb' 16 8, w.extractLsb' 8 8, w.extractLsb' 0 8]

/-- R86, R103: DECODE of any other length consumes its LEN characters unexamined, whatever they are, writes no output, and reports
LengthError; nothing else changes. -/
def Obligations.DecodeReportsLengthError : Prop :=
  ∀ (len : BitVec 28) (s : State), len.toNat % 5 ≠ 0 → len.toNat ≤ s.input.length →
    exec (.decode len) s = .next { s with
      status := 0x20050001#32, errInfo := len.setWidth 32, outCount := 0#32, result := 0#32,
      input := s.input.drop len.toNat, active := none, history := .lengthError 5 len.toNat :: s.history }

/-- R87, R83, R103: the first INVALID character of a DECODE, at position pos: its byte and position are reported, the bytes of the
chunks before its chunk are on the output stream, all LEN characters are consumed, and nothing else changes. -/
def Obligations.DecodeReportsFirstInvalidCharacter : Prop :=
  ∀ (len : BitVec 28) (s : State) (pos : Nat),
    len.toNat % 5 = 0 → len.toNat ≤ s.input.length → (s.outReady = true ∨ pos < 5) → pos < len.toNat →
    decChar s.cfg (s.byteIn pos) = none → (∀ q, q < pos → decChar s.cfg (s.byteIn q) ≠ none) →
    ∃ out : List Byte,
      exec (.decode len) s = .next { s with
        status := mkSTATUS 2#2 (s.byteIn pos) 0#4 0x2#4, errInfo := BitVec.ofNat 32 pos,
        outCount := BitVec.ofNat 32 (4 * (pos / 5)), result := 0#32,
        input := s.input.drop len.toNat, output := s.output ++ out, active := none,
        history := .invalidCharacter (s.byteIn pos) pos :: s.history } ∧
      out.length = 4 * (pos / 5) ∧
      ∀ k : Nat, k < pos / 5 → ∃ w : Word,
        decChunk s.cfg (s.byteIn (5 * k)) (s.byteIn (5 * k + 1)) (s.byteIn (5 * k + 2)) (s.byteIn (5 * k + 3))
          (s.byteIn (5 * k + 4)) = .word w ∧
        (out.drop (4 * k)).take 4 = [w.extractLsb' 24 8, w.extractLsb' 16 8, w.extractLsb' 8 8, w.extractLsb' 0 8]

/-- R88: the length of the output; output chunk k is made of input chunk k alone; and DECODE of a concatenation of two buffers that
decode. -/
def Obligations.DecodeOfConcatenation : Prop :=
  (∀ (cfg : Config) (a : List Byte), a.length % 5 = 0 → (decodeBytes cfg 0 a).bad = none →
    (decodeBytes cfg 0 a).out.length = a.length * 4 / 5 ∧
    ∀ k, k < a.length / 5 → ∃ w : Word,
      decChunk cfg (a.getD (5 * k) 0#8) (a.getD (5 * k + 1) 0#8) (a.getD (5 * k + 2) 0#8) (a.getD (5 * k + 3) 0#8)
        (a.getD (5 * k + 4) 0#8) = .word w ∧
      ((decodeBytes cfg 0 a).out.drop (4 * k)).take 4 = bytesOfWord w) ∧
  ∀ (cfg : Config) (a b : List Byte), a.length % 5 = 0 → b.length % 5 = 0 →
    (decodeBytes cfg 0 a).bad = none → (decodeBytes cfg 0 b).bad = none →
    (decodeBytes cfg 0 (a ++ b)).bad = none ∧
    (decodeBytes cfg 0 (a ++ b)).out = (decodeBytes cfg 0 a).out ++ (decodeBytes cfg 0 b).out

/-- R82: encoding what was decoded gives the characters back when all are in the alphabet and no chunk's exact value reaches
2^32. -/
def Obligations.EncodeOfDecodeGivesTheTextBack : Prop :=
  ∀ (cfg : Config) (ds : List (Fin 85)), cfg.Legal → ds.length % 5 = 0 →
    (∀ k, k < ds.length / 5 →
      exactValue (ds.getD (5 * k) 0).val (ds.getD (5 * k + 1) 0).val (ds.getD (5 * k + 2) 0).val
        (ds.getD (5 * k + 3) 0).val (ds.getD (5 * k + 4) 0).val < 2 ^ 32) →
    (decodeBytes cfg 0 (ds.map alpha)).bad = none ∧
    encodeBytes (decodeBytes cfg 0 (ds.map alpha)).out = ds.map alpha

/-- R89: the exact round trip through the block's two commands, in either STRICT_ALPHABET setting and for every legal REV_SIZE. -/
def Obligations.ExactRoundTripThroughTheBlock : Prop :=
  ∀ (raw : List Byte) (s : State), s.Quiet → s.cfg.Legal → raw.length % 4 = 0 → raw.length ≤ 214748364 →
    ∃ (t u : State) (text : List Byte),
      call (encode (.encode (BitVec.ofNat 28 raw.length))) raw s = .next (t, .ok text) ∧
      text.length = raw.length * 5 / 4 ∧
      call (encode (.decode (BitVec.ofNat 28 text.length))) text t = .next (u, .ok raw)

/-! ### Commands, order and purity -/

/-- R33, R51: an idle block runs the command its next word decodes to, and the later words wait. -/
def Obligations.StepRunsTheDecodedCommand : Prop :=
  ∀ (s : State) (cmd : Word) (later : List Word) (i : Instr),
    s.resetAsserted = false → s.active = none → s.commands = cmd :: later → decode cmd = .ok i →
    step s = exec i { s with commands := later }

/-- The word placed by `withFetchWord` is the one the next step runs, for every legal command and from every state. Placing a word is
the model's own loader and no action of R33's host, who can neither abandon a command nor drop a word (notes/assumptions/2.md, DESIGN
CHOICE); that the 32-bit word placed (R45) runs as the command it decodes to is R51's. -/
def Obligations.FetchWordRunsNext : Prop :=
  ∀ (i : Instr) (s : State), i.wf = true →
    step (s.withFetchWord 32 (encode i).toNat) =
      exec i { s with commands := [], active := none, resetAsserted := false }

/-- R33, R42, R16: words are accepted one at a time, in order, and only while no command is in progress; none is dropped. -/
def Obligations.CommandWordsKeepTheirOrder : Prop :=
  ∀ s t : State, (step s = .next t ∨ byteStep s = .next t) →
    (s.active = none ∧ ∃ cmd, s.commands = cmd :: t.commands) ∨
    (s.active.isSome = true ∧ t.commands = s.commands)

/-- R35, R37: input bytes are consumed from the front of the stream and output bytes are added at its end; nothing on either stream
is changed or moved. -/
def Obligations.StreamsOnlyAdvance : Prop :=
  ∀ s t : State, (step s = .next t ∨ byteStep s = .next t) →
    ∃ (n : Nat) (out : List Byte), n ≤ s.input.length ∧ t.input = s.input.drop n ∧ t.output = s.output ++ out

/-- R36, R21: a command that completes consumed exactly the bytes its word owes, in every outcome, and OUT_COUNT is the number of
bytes it put on the output stream. -/
def Obligations.CompletedCommandConsumesItsBytes : Prop :=
  ∀ (s t : State) (cmd : Word) (later : List Word), s.active = none → s.commands = cmd :: later →
    step s = .next t → t.active = none →
    inputNeed cmd ≤ s.input.length ∧ t.input = s.input.drop (inputNeed cmd) ∧
    ∃ out : List Byte, t.output = s.output ++ out ∧ t.outCount.toNat = out.length

/-- R11, R19: a step that completes a command gives it exactly one outcome, of the kind ERR_KIND shows; no other step gives one. The record of outcomes is the model's own (notes/assumptions/10.md). -/
def Obligations.OneOutcomePerCommand : Prop :=
  ∀ s t : State, (step s = .next t ∨ byteStep s = .next t) →
    (t.active.isSome = true ∧ t.history = s.history) ∨
    (t.active = none ∧ ∃ o : CmdOutcome, t.history = o :: s.history ∧ errKind t.status = o.kind)

/-- R24, R25, R40: what a completed command leaves depends on its word, its input bytes and the parameters alone, never on an
earlier command. -/
def Obligations.CommandResultIgnoresEarlierCommands : Prop :=
  ∀ (i : Instr) (s₁ s₂ t₁ t₂ : State), i.wf = true → s₁.cfg = s₂.cfg →
    s₁.input.take (inputNeed (encode i)) = s₂.input.take (inputNeed (encode i)) →
    exec i s₁ = .next t₁ → exec i s₂ = .next t₂ → t₁.active = none → t₂.active = none →
    t₁.status = t₂.status ∧ t₁.errInfo = t₂.errInfo ∧ t₁.outCount = t₂.outCount ∧ t₁.result = t₂.result ∧
    ∃ (o : CmdOutcome) (out : List Byte),
      t₁.history = o :: s₁.history ∧ t₂.history = o :: s₂.history ∧
      t₁.output = s₁.output ++ out ∧ t₂.output = s₂.output ++ out

/-! ### Transactions byte by byte -/

/-- R33, R27, R120, R122: a command that must wait, for input that is not all there or for a host that does not take the output it
has, is accepted and goes into progress: BUSY reads 1 and nothing else changes. That a command which need not wait is one step is the
model's choice (notes/assumptions/4.md). -/
def Obligations.CommandThatMustWaitGoesIntoProgress : Prop :=
  ∀ (len : BitVec 28) (s : State),
    (s.input.length < len.toNat ∨ (s.outReady = false ∧ len.toNat % 4 = 0 ∧ len ≠ 0#28) →
      exec (.encode len) s = .next { s with active := some (Transaction.fresh (0x1#4 ++ len)) }) ∧
    (s.input.length < len.toNat ∨ (s.outReady = false ∧ len.toNat % 5 = 0 ∧ len ≠ 0#28 ∧
        ∀ i, i < 5 → decChar s.cfg (s.byteIn i) ≠ none) →
      exec (.decode len) s = .next { s with active := some (Transaction.fresh (0x2#4 ++ len)) })

/-- R120, R122 and the model's byte-level schedule (notes/assumptions/4.md and 5.md): a transaction that needs an input byte that has not been sent, or has an output
byte the host cannot take, has no step. -/
def Obligations.WaitingTransactionHasNoStep : Prop :=
  ∀ (s : State) (t : Transaction), s.resetAsserted = false → s.active = some t →
    (t.pending = [] → t.pos < inputNeed t.word → s.input = [] → step s = .refused .waitingForInput) ∧
    (t.pending ≠ [] → s.outReady = false → step s = .refused .waitingForHost)

/-- R31, R27, R28, R42: what a command does in one step is what it does byte by byte from its acceptance. The byte-level schedule is
the model's choice (notes/assumptions/4.md, DESIGN CHOICE). -/
def Obligations.ByteStepsReachTheTransactionStep : Prop :=
  ∀ (s t : State) (cmd : Word) (later : List Word),
    s.resetAsserted = false → s.active = none → s.commands = cmd :: later → step s = .next t →
    ∃ k : Nat, byteRun k s = .next t

/-- R125, R110: with its input sent and its output taken, a transaction completes, in a number of byte moves bounded by its
input length. The byte moves are the model's choice (notes/assumptions/4.md, DESIGN CHOICE). -/
def Obligations.TransactionCompletesWithinItsInputLength : Prop :=
  ∀ (s : State) (t : Transaction), s.resetAsserted = false → s.active = some t → s.outReady = true →
    inputNeed t.word - t.pos ≤ s.input.length →
    ∃ (k : Nat) (u : State), k ≤ t.pending.length + 6 * (inputNeed t.word - t.pos) + 1 ∧
      byteRun k s = .next u ∧ u.active = none

/-! ### Reset, host duties and instances -/

/-- R115, R116: asserting reset abandons what is in progress and on the port with no register update but the reset values; output
already written stays; no step happens until release, and then the block is idle. That the bytes sent for the abandoned commands
are gone is the model's choice (notes/assumptions/9.md). -/
def Obligations.ResetAbandonsTheTransaction : Prop :=
  ∀ s : State, ∃ t u : State,
    hostAct .assertReset s = .next t ∧
    t.status = 0#32 ∧ t.errInfo = 0#32 ∧ t.outCount = 0#32 ∧ t.result = 0#32 ∧ t.cfg = s.cfg ∧
    t.active = none ∧ t.commands = [] ∧ t.input = [] ∧ t.output = s.output ∧ t.history = s.history ∧
    step t = .refused .heldInReset ∧
    hostAct .releaseReset t = .next u ∧ u = { t with resetAsserted := false } ∧
    step u = .refused .waitingForCommand

/-- R120: a byte no command owes is refused, and neither a step nor a host action breaks the framing. That the refusal stands at the
send is the model's choice (notes/assumptions/7.md, DESIGN CHOICE). That asserting reset keeps the framing is the model's choice too:
it does because the unconsumed input bytes are then gone, on which R115 is silent (notes/assumptions/9.md, DESIGN CHOICE). -/
def Obligations.FramingIsKept : Prop :=
  (∀ (s : State) (bytes : List Byte), s.resetAsserted = false → s.owed < s.input.length + bytes.length →
    hostAct (.send bytes) s = .refused .unowedInput) ∧
  ∀ s t : State, s.Framed → (step s = .next t ∨ byteStep s = .next t ∨ ∃ a, hostAct a s = .next t) → t.Framed

/-- R14, R112: a step of one instance, or what the host does to one, leaves every other instance as it was, and is what the instance
would do alone. -/
def Obligations.InstancesAreIndependent : Prop :=
  ∀ (k : Nat) (sys sys' : List State),
    (systemAct (.step k) sys = .next sys' →
      sys'.length = sys.length ∧ (∀ j, j ≠ k → sys'[j]? = sys[j]?) ∧
      ∃ s t, sys[k]? = some s ∧ sys'[k]? = some t ∧ step s = .next t) ∧
    ∀ a : HostAction, systemAct (.host k a) sys = .next sys' →
      sys'.length = sys.length ∧ (∀ j, j ≠ k → sys'[j]? = sys[j]?) ∧
      ∃ s t, sys[k]? = some s ∧ sys'[k]? = some t ∧ hostAct a s = .next t

/-! ### The invariant -/

/-- R30, R6: the invariant holds after reset. That State.reset is framed too rests on its empty input stream, which is the model's
choice (notes/assumptions/11.md, DESIGN CHOICE). -/
def Obligations.InvariantHoldsAtReset : Prop :=
  State.reset.Inv ∧ State.reset.Framed

/-- R18, R20, R22, R24, R21, R37: from every state that meets the invariant, a step gives a state that meets it. -/
def Obligations.InvariantKeptByEveryStep : Prop :=
  ∀ s t : State, s.Inv → (step s = .next t ∨ byteStep s = .next t) → t.Inv

/-- The invariant through what the outside can do (R34, R115). -/
def Obligations.InvariantKeptByHostActions : Prop :=
  ∀ (a : HostAction) (s t : State), s.Inv → hostAct a s = .next t → t.Inv

/-! ### The host's padding layer -/

/-- R91, R92: Pad appends 1 to 4 bytes, each of value their number, and the length becomes the next multiple of 4; DOC's three
vectors. -/
def Obligations.PadAppendsItsMarker : Prop :=
  (∀ raw : List Byte, ∃ need : Nat, 1 ≤ need ∧ need ≤ 4 ∧ need = 4 - raw.length % 4 ∧
    pad raw = raw ++ List.replicate need (BitVec.ofNat 8 need) ∧ (pad raw).length % 4 = 0 ∧
    (pad raw).length = raw.length + need) ∧
  pad [0x00#8] = [0x00#8, 0x03#8, 0x03#8, 0x03#8] ∧
  pad [0x00#8, 0x00#8, 0x00#8, 0x00#8] = [0x00#8, 0x00#8, 0x00#8, 0x00#8, 0x04#8, 0x04#8, 0x04#8, 0x04#8] ∧
  pad [] = [0x04#8, 0x04#8, 0x04#8, 0x04#8]

/-- R93, R94: what Trim gives in each case, and that it undoes Pad. -/
def Obligations.TrimRemovesTheMarker : Prop :=
  trim [] = [] ∧
  (∀ (front : List Byte) (last : Byte),
    (4 < last.toNat ∨ front.length + 1 < last.toNat → trim (front ++ [last]) = front ++ [last]) ∧
    (last.toNat ≤ 4 → last.toNat ≤ front.length + 1 →
      trim (front ++ [last]) = (front ++ [last]).take (front.length + 1 - last.toNat))) ∧
  ∀ raw : List Byte, trim (pad raw) = raw

/-- R97, R95, R96: the padded round trip through the block, for every buffer whose text fits one DECODE. -/
def Obligations.PaddedRoundTripThroughTheBlock : Prop :=
  ∀ (raw : List Byte) (s : State), s.Quiet → s.cfg.Legal → raw.length ≤ 214748363 →
    ∃ (t u : State) (text : List Byte),
      paddedEncode raw s = .next (t, .ok text) ∧ paddedDecode text t = .next (u, .ok raw)

/-- R96, R121: PaddedDecode is Trim of what DECODE gives; it returns the block's error and does not trim; no output byte of the call
is left; and whatever was in progress or presented before, the outcome is that of DECODE of this text and of no earlier command.
That earlier commands complete first and that their unused output stays is the model's form of a call (notes/assumptions/16.md and
13.md, DESIGN CHOICE). -/
def Obligations.PaddedDecodePropagatesErrors : Prop :=
  ∀ (text : List Byte) (s : State), text.length < 2 ^ 28 →
    (∀ (t : State) (raw : List Byte), call (encode (.decode (BitVec.ofNat 28 text.length))) text s = .next (t, .ok raw) →
      paddedDecode text s = .next (t, .ok (trim raw))) ∧
    (∀ (t : State) (o : CmdOutcome), paddedDecode text s = .next (t, o) →
      t.output = s.rest.output ∧
      (text.length % 5 ≠ 0 → o = .lengthError 5 text.length) ∧
      (text.length % 5 = 0 → (decodeBytes s.cfg 0 text).bad = none → o = .ok (trim (decodeBytes s.cfg 0 text).out)) ∧
      ∀ c pos, text.length % 5 = 0 → (decodeBytes s.cfg 0 text).bad = some (c, pos) → o = .invalidCharacter c pos) ∧
    (s.rest.Quiet → text.length % 5 ≠ 0 →
      ∃ t, paddedDecode text s = .next (t, .lengthError 5 text.length) ∧ t.output = s.rest.output) ∧
    (s.rest.Quiet → text.length % 5 = 0 → (decodeBytes s.cfg 0 text).bad = none →
      ∃ t, paddedDecode text s = .next (t, .ok (trim (decodeBytes s.cfg 0 text).out)) ∧ t.output = s.rest.output) ∧
    ∀ pos, s.rest.Quiet → text.length % 5 = 0 → pos < text.length → decChar s.cfg (text.getD pos 0#8) = none →
      (∀ q, q < pos → decChar s.cfg (text.getD q 0#8) ≠ none) →
      ∃ t, paddedDecode text s = .next (t, .invalidCharacter (text.getD pos 0#8) pos) ∧ t.output = s.rest.output

/-! ### What the host sees of the port, rest, the system of instances, and PaddedEncode -/

/-- R125, R114: without the host the block comes to rest, waiting, after a number of steps bounded by what is on its port, on its
input stream and in its transaction. What a step is, and so the bound, is the model's choice (notes/assumptions/4.md and 13.md,
DESIGN CHOICE). -/
def Obligations.BlockComesToRest : Prop :=
  ∀ s t : State, step s.rest ≠ .next t

/-- R104, R113, R33: what the host sees of the command port. A step is seen as the acceptance of a word exactly when it takes that
word from the port; that happens only while BUSY reads 0, so the command before has completed; and over a step the port becomes free
only by an acceptance the host sees. The rules give seeing the port accept no form: that a step shows it, and that `pollPort` shows a
free port, are the model's choice (notes/assumptions/13.md, DESIGN CHOICE). -/
def Obligations.PortAcceptanceShowsCompletion : Prop :=
  ∀ s t : State, (step s = .next t ∨ byteStep s = .next t) →
    (∀ cmd : Word, stepObserved s = [.accepted cmd] ↔ s.active = none ∧ s.commands = cmd :: t.commands) ∧
    (∀ cmd : Word, stepObserved s = [.accepted cmd] → busyBit (readReg s 0x0#4) = false) ∧
    (busyBit (readReg s 0x0#4) = true → stepObserved s = [] ∧ t.commands = s.commands) ∧
    (observe .pollPort s = [.portFree false] → observe .pollPort t = [.portFree true] →
      ∃ cmd : Word, s.commands = [cmd] ∧ stepObserved s = [.accepted cmd])

/-- R112, R115, R116: reset holds every instance, its release starts every instance together, each idle with its own parameters and
the reset values; nothing that happens in a system takes one instance into or out of reset alone; and ID is the same in instances
with the same parameters. One reset for the whole system is the model's form of R112 (notes/assumptions/17.md). -/
def Obligations.InstancesStartTogether : Prop :=
  (∀ sys : List State, ∃ held started : List State,
    systemAct .assertReset sys = .next held ∧ systemAct .releaseReset held = .next started ∧
    held.length = sys.length ∧ started.length = sys.length ∧
    (∀ s ∈ held, step s = .refused .heldInReset) ∧
    ∀ (k : Nat) (s u : State), sys[k]? = some s → started[k]? = some u →
      u.cfg = s.cfg ∧ u.active = none ∧ u.commands = [] ∧
      readReg u 0x0#4 = 0#32 ∧ readReg u 0x1#4 = 0#32 ∧ readReg u 0x2#4 = 0#32 ∧ readReg u 0x3#4 = 0#32 ∧
      step u = .refused .waitingForCommand) ∧
  (∀ (a : SystemAction) (sys sys' : List State), StartedTogether sys → systemAct a sys = .next sys' → StartedTogether sys') ∧
  (∀ cfgs : List Config, StartedTogether (systemReset cfgs)) ∧
  ∀ s t : State, s.cfg = t.cfg → readReg s 0x4#4 = readReg t 0x4#4

/-- R95: PaddedEncode. For a buffer of at most 2^28 - 5 bytes, on a block that comes to rest quiet, it succeeds with ENCODE of Pad's
result, five characters per four bytes; and whatever was in progress or presented before, it gives no outcome but that one, so it
never gives a LengthError. That earlier commands complete first is the model's form of a call, and that a longer buffer is refused is
its form of I21 (notes/assumptions/16.md and 13.md, DESIGN CHOICE). -/
def Obligations.PaddedEncodeNeverFails : Prop :=
  ∀ (raw : List Byte) (s : State),
    (s.rest.Quiet → raw.length ≤ 2 ^ 28 - 5 →
      ∃ t, paddedEncode raw s = .next (t, .ok (encodeBytes (pad raw))) ∧
        (encodeBytes (pad raw)).length = (pad raw).length * 5 / 4) ∧
    (∀ (t : State) (o : CmdOutcome), paddedEncode raw s = .next (t, o) → o = .ok (encodeBytes (pad raw))) ∧
    (2 ^ 28 - 5 < raw.length → paddedEncode raw s = .refused .lengthNotExpressible)

/-- R125, R6: no rule depends on LATENCY. Whatever the times of the commands, every step, byte step and host action does the same, or
is refused for the same reason, and every register reads the same. LATENCY as a list of times is the model's form
(notes/assumptions/14.md, DESIGN CHOICE). -/
def Obligations.NoRuleDependsOnLatency : Prop :=
  ∀ (s : State) (times : List Nat),
    (∀ t, step s = .next t → step (s.withLatency times) = .next (t.withLatency times)) ∧
    (∀ r, step s = .refused r → step (s.withLatency times) = .refused r) ∧
    (∀ t, byteStep s = .next t → byteStep (s.withLatency times) = .next (t.withLatency times)) ∧
    (∀ r, byteStep s = .refused r → byteStep (s.withLatency times) = .refused r) ∧
    (∀ a t, hostAct a s = .next t → hostAct a (s.withLatency times) = .next (t.withLatency times)) ∧
    (∀ a r, hostAct a s = .refused r → hostAct a (s.withLatency times) = .refused r) ∧
    ∀ a : BitVec 4, readReg (s.withLatency times) a = readReg s a
end

