-- ==== Sys2Proof/Laws/Config.lean ====
section
/-! SUPPORT. The parameters with one legal value have it (00_scope.md R6), and other command times change no other parameter. -/

namespace Sys2Proof

section Fixed
variable (c : Config)

@[simp] theorem alphaSize_val : c.alphaSize.val = 85 := c.alphaSize.property
@[simp] theorem revOffset_val : c.revOffset.val = 32 := c.revOffset.property
@[simp] theorem word_val : c.word.val = 32 := c.word.property
@[simp] theorem lenW_val : c.lenW.val = 28 := c.lenW.property

end Fixed

section WithLatency
variable (c : Config) (times : List Nat)

@[simp] theorem withLatency_revSize : (c.withLatency times).revSize = c.revSize := rfl
@[simp] theorem withLatency_strictAlphabet : (c.withLatency times).strictAlphabet = c.strictAlphabet := rfl
@[simp] theorem withLatency_alphaSize : (c.withLatency times).alphaSize = c.alphaSize := rfl
@[simp] theorem withLatency_revOffset : (c.withLatency times).revOffset = c.revOffset := rfl
@[simp] theorem withLatency_word : (c.withLatency times).word = c.word := rfl
@[simp] theorem withLatency_lenW : (c.withLatency times).lenW = c.lenW := rfl
@[simp] theorem withLatency_latency : (c.withLatency times).latency = times := rfl

end WithLatency

end Sys2Proof
end

