-- ==== Sys2Proof/Laws/Decode.lean ====
section
/-! SUPPORT. The two halves of a command word: taking them out of an OP and ARG put together, and putting a word's own halves
together again (30_encoding.md R45). -/

namespace Sys2Proof

@[simp] theorem opField_append (op : BitVec 4) (arg : BitVec 28) : opField (op ++ arg) = op := by
  refine BitVec.eq_of_getLsbD_eq fun i hi => ?_
  simp only [opField, BitVec.getLsbD_extractLsb', BitVec.getLsbD_append]
  simp [hi]

@[simp] theorem argField_append (op : BitVec 4) (arg : BitVec 28) : argField (op ++ arg) = arg := by
  refine BitVec.eq_of_getLsbD_eq fun i hi => ?_
  simp only [argField, BitVec.getLsbD_extractLsb', BitVec.getLsbD_append]
  simp [hi]

theorem opField_append_argField (cmd : Word) : opField cmd ++ argField cmd = cmd := by
  refine BitVec.eq_of_getLsbD_eq fun i hi => ?_
  simp only [opField, argField, BitVec.getLsbD_extractLsb', BitVec.getLsbD_append]
  split
  · rename_i h; simp [h]
  · simp [show i - 28 < 4 by omega, show 28 + (i - 28) = i by omega]

end Sys2Proof
end

