-- ==== Sys2Proof/Laws/Flags.lean ====
section
/-! SUPPORT. STATUS with its BUSY bit set or cleared (10_state.md R25, R27). -/

namespace Sys2Proof.Machine

@[simp] theorem busyBit_withBusy (busy : Bool) (st : Word) : busyBit (withBusy busy st) = busy := by
  simp only [withBusy, busyBit, BitVec.getLsbD_append]; simp

@[simp] theorem withBusy_withBusy (b c : Bool) (st : Word) : withBusy b (withBusy c st) = withBusy b st := by
  refine BitVec.eq_of_getLsbD_eq fun i hi => ?_
  simp only [withBusy, BitVec.getLsbD_append, BitVec.getLsbD_extractLsb']
  split
  · rename_i h; simp [h]
  · split
    · rfl
    · simp [show ¬ 3 + (i - 2 - 1) < 2 by omega, show ¬ 3 + (i - 2 - 1) - 2 < 1 by omega,
        show 3 + (i - 2 - 1) - 2 - 1 = i - 2 - 1 by omega]

end Sys2Proof.Machine
end

