-- ==== Sys2Proof/Laws/State.lean ====
section
/-! SUPPORT. The fields of a state after each of the model's updates: one lemma per field and update, so that no later proof unfolds
a record update. -/

namespace Sys2Proof.Machine

section Retire
variable (c : Completion) (s : State)

@[simp] theorem retire_cfg : (s.retire c).cfg = s.cfg := rfl
@[simp] theorem retire_status : (s.retire c).status = c.status := rfl
@[simp] theorem retire_errInfo : (s.retire c).errInfo = c.errInfo := rfl
@[simp] theorem retire_outCount : (s.retire c).outCount = c.outCount := rfl
@[simp] theorem retire_result : (s.retire c).result = c.result := rfl
@[simp] theorem retire_commands : (s.retire c).commands = s.commands := rfl
@[simp] theorem retire_input : (s.retire c).input = s.input := rfl
@[simp] theorem retire_output : (s.retire c).output = s.output := rfl
@[simp] theorem retire_active : (s.retire c).active = none := rfl
@[simp] theorem retire_outReady : (s.retire c).outReady = s.outReady := rfl
@[simp] theorem retire_resetAsserted : (s.retire c).resetAsserted = s.resetAsserted := rfl
@[simp] theorem retire_history : (s.retire c).history = c.outcome :: s.history := rfl

end Retire

section Finish
variable (n : Nat) (c : Completion) (s : State)

@[simp] theorem finish_cfg : (s.finish n c).cfg = s.cfg := rfl
@[simp] theorem finish_status : (s.finish n c).status = c.status := rfl
@[simp] theorem finish_errInfo : (s.finish n c).errInfo = c.errInfo := rfl
@[simp] theorem finish_outCount : (s.finish n c).outCount = c.outCount := rfl
@[simp] theorem finish_result : (s.finish n c).result = c.result := rfl
@[simp] theorem finish_commands : (s.finish n c).commands = s.commands := rfl
@[simp] theorem finish_input : (s.finish n c).input = s.input.drop n := rfl
@[simp] theorem finish_output : (s.finish n c).output = s.output ++ c.out := rfl
@[simp] theorem finish_active : (s.finish n c).active = none := rfl
@[simp] theorem finish_outReady : (s.finish n c).outReady = s.outReady := rfl
@[simp] theorem finish_resetAsserted : (s.finish n c).resetAsserted = s.resetAsserted := rfl
@[simp] theorem finish_history : (s.finish n c).history = c.outcome :: s.history := rfl

end Finish

section Start
variable (cmd : Word) (s : State)

@[simp] theorem start_cfg : (s.start cmd).cfg = s.cfg := rfl
@[simp] theorem start_status : (s.start cmd).status = s.status := rfl
@[simp] theorem start_errInfo : (s.start cmd).errInfo = s.errInfo := rfl
@[simp] theorem start_outCount : (s.start cmd).outCount = s.outCount := rfl
@[simp] theorem start_result : (s.start cmd).result = s.result := rfl
@[simp] theorem start_commands : (s.start cmd).commands = s.commands := rfl
@[simp] theorem start_input : (s.start cmd).input = s.input := rfl
@[simp] theorem start_output : (s.start cmd).output = s.output := rfl
@[simp] theorem start_active : (s.start cmd).active = some (Transaction.fresh cmd) := rfl
@[simp] theorem start_outReady : (s.start cmd).outReady = s.outReady := rfl
@[simp] theorem start_resetAsserted : (s.start cmd).resetAsserted = s.resetAsserted := rfl
@[simp] theorem start_history : (s.start cmd).history = s.history := rfl

end Start

section Abandon
variable (s : State)

@[simp] theorem abandon_cfg : s.abandon.cfg = s.cfg := rfl
@[simp] theorem abandon_status : s.abandon.status = 0#32 := rfl
@[simp] theorem abandon_errInfo : s.abandon.errInfo = 0#32 := rfl
@[simp] theorem abandon_outCount : s.abandon.outCount = 0#32 := rfl
@[simp] theorem abandon_result : s.abandon.result = 0#32 := rfl
@[simp] theorem abandon_commands : s.abandon.commands = [] := rfl
@[simp] theorem abandon_input : s.abandon.input = [] := rfl
@[simp] theorem abandon_output : s.abandon.output = s.output := rfl
@[simp] theorem abandon_active : s.abandon.active = none := rfl
@[simp] theorem abandon_outReady : s.abandon.outReady = s.outReady := rfl
@[simp] theorem abandon_resetAsserted : s.abandon.resetAsserted = true := rfl
@[simp] theorem abandon_history : s.abandon.history = s.history := rfl

end Abandon

section FetchWord
variable (s : State) (nbits w : Nat)

@[simp] theorem withFetchWord_commands :
    (s.withFetchWord nbits w).commands = [BitVec.ofNat 32 (w % 2 ^ nbits)] := rfl
@[simp] theorem withFetchWord_active : (s.withFetchWord nbits w).active = none := rfl
@[simp] theorem withFetchWord_resetAsserted : (s.withFetchWord nbits w).resetAsserted = false := rfl
@[simp] theorem withFetchWord_cfg : (s.withFetchWord nbits w).cfg = s.cfg := rfl
@[simp] theorem withFetchWord_input : (s.withFetchWord nbits w).input = s.input := rfl
@[simp] theorem withFetchWord_output : (s.withFetchWord nbits w).output = s.output := rfl
@[simp] theorem withFetchWord_outReady : (s.withFetchWord nbits w).outReady = s.outReady := rfl

end FetchWord

/-- BUSY is the presence of a transaction (10_state.md R18). -/
@[simp] theorem busy_eq (s : State) : s.busy = s.active.isSome := rfl

/-- `finish` is `retire` after the streams have moved. -/
theorem finish_zero_eq_retire (c : Completion) (s : State) (h : c.out = []) : s.finish 0 c = s.retire c := by
  simp [State.finish, State.retire, h]

section WithLatency
variable (times : List Nat) (s : State)

@[simp] theorem state_withLatency_cfg : (s.withLatency times).cfg = s.cfg.withLatency times := rfl
@[simp] theorem state_withLatency_status : (s.withLatency times).status = s.status := rfl
@[simp] theorem state_withLatency_errInfo : (s.withLatency times).errInfo = s.errInfo := rfl
@[simp] theorem state_withLatency_outCount : (s.withLatency times).outCount = s.outCount := rfl
@[simp] theorem state_withLatency_result : (s.withLatency times).result = s.result := rfl
@[simp] theorem state_withLatency_commands : (s.withLatency times).commands = s.commands := rfl
@[simp] theorem state_withLatency_input : (s.withLatency times).input = s.input := rfl
@[simp] theorem state_withLatency_output : (s.withLatency times).output = s.output := rfl
@[simp] theorem state_withLatency_active : (s.withLatency times).active = s.active := rfl
@[simp] theorem state_withLatency_outReady : (s.withLatency times).outReady = s.outReady := rfl
@[simp] theorem state_withLatency_resetAsserted : (s.withLatency times).resetAsserted = s.resetAsserted := rfl
@[simp] theorem state_withLatency_history : (s.withLatency times).history = s.history := rfl

end WithLatency

end Sys2Proof.Machine
end

