-- ==== Sys2Proof/Laws/Ops.lean ====
section
/-! SUPPORT. One lemma per shared operation that says everything it can do: the completions, `transact`, the meanings over it, and
the inversion lemmas of `tick`, `byteStep` and `step`. Later proofs cite these and unfold none of them. -/

namespace Sys2Proof.Machine

section Completions
variable (op mult : BitVec 4) (kind : BitVec 2) (byte : Byte) (result info cmd : Word) (out : List Byte) (pos : Nat)
  (len : BitVec 28) (outcome : CmdOutcome)

@[simp] theorem success_status : (Completion.success op result out).status = mkSTATUS kindOk 0#8 0#4 op := rfl
@[simp] theorem success_errInfo : (Completion.success op result out).errInfo = 0#32 := rfl
@[simp] theorem success_outCount : (Completion.success op result out).outCount = countWord out := rfl
@[simp] theorem success_result : (Completion.success op result out).result = result := rfl
@[simp] theorem success_out : (Completion.success op result out).out = out := rfl
@[simp] theorem success_outcome : (Completion.success op result out).outcome = .ok out := rfl

@[simp] theorem raise_status :
    (Completion.raise kind byte mult op info out outcome).status = mkSTATUS kind byte mult op := rfl
@[simp] theorem raise_errInfo : (Completion.raise kind byte mult op info out outcome).errInfo = info := rfl
@[simp] theorem raise_outCount : (Completion.raise kind byte mult op info out outcome).outCount = countWord out := rfl
@[simp] theorem raise_result : (Completion.raise kind byte mult op info out outcome).result = 0#32 := rfl
@[simp] theorem raise_out : (Completion.raise kind byte mult op info out outcome).out = out := rfl
@[simp] theorem raise_outcome : (Completion.raise kind byte mult op info out outcome).outcome = outcome := rfl

@[simp] theorem lengthError_out : (lengthError mult op len).out = [] := rfl
@[simp] theorem badCommand_out : (badCommand cmd).out = [] := rfl
@[simp] theorem invalidCharacter_out : (invalidCharacter op byte pos out).out = out := rfl
@[simp] theorem decodeEnd_out (bad : Option (Byte × Nat)) : (decodeEnd out bad).out = out := by
  rcases bad with _ | ⟨c, pos⟩ <;> rfl

end Completions

/-- When a transaction can run as one step (R31): its input is there, and its output, if any, is taken. -/
theorem canFinish_iff (n : Nat) (run : List Byte → Completion) (s : State) :
    s.canFinish n run = true ↔
      n ≤ s.input.length ∧ (s.outReady = true ∨ (run (s.input.take n)).out = []) := by
  simp [State.canFinish]

/-- Everything `transact` can do: finish, or go into progress. -/
theorem transact_cases {cmd : Word} {n : Nat} {run : List Byte → Completion} {s t : State}
    (h : transact cmd n run s = .next t) :
    (n ≤ s.input.length ∧ (s.outReady = true ∨ (run (s.input.take n)).out = []) ∧
      t = s.finish n (run (s.input.take n))) ∨
    (¬ (n ≤ s.input.length ∧ (s.outReady = true ∨ (run (s.input.take n)).out = [])) ∧ t = s.start cmd) := by
  unfold transact at h
  split at h <;> cases h
  · left; obtain ⟨h1, h2⟩ := (canFinish_iff _ _ _).1 ‹_›; exact ⟨h1, h2, rfl⟩
  · right; exact ⟨fun hc => ‹¬ _› ((canFinish_iff _ _ _).2 hc), rfl⟩

/-- `transact` where nothing makes the command wait. -/
theorem transact_finish {cmd : Word} {n : Nat} {run : List Byte → Completion} {s : State}
    (hn : n ≤ s.input.length) (ho : s.outReady = true ∨ (run (s.input.take n)).out = []) :
    transact cmd n run s = .next (s.finish n (run (s.input.take n))) :=
  if_pos ((canFinish_iff _ _ _).2 ⟨hn, ho⟩)

/-- `transact` where something does. -/
theorem transact_start {cmd : Word} {n : Nat} {run : List Byte → Completion} {s : State}
    (h : ¬ (n ≤ s.input.length ∧ (s.outReady = true ∨ (run (s.input.take n)).out = []))) :
    transact cmd n run s = .next (s.start cmd) :=
  if_neg fun hc => h ((canFinish_iff _ _ _).1 hc)

/-- Everything a command's meaning can do: complete with the bytes its format gives it, or go into progress. -/
theorem exec_cases {i : Instr} {s t : State} (h : exec i s = .next t) :
    (∃ len, i = .encode len ∧ len.toNat ≤ s.input.length ∧
      t = s.finish len.toNat (encodeCompletion len (s.input.take len.toNat))) ∨
    (∃ len, i = .decode len ∧ len.toNat ≤ s.input.length ∧
      t = s.finish len.toNat (decodeCompletion s.cfg len (s.input.take len.toNat))) ∨
    (∃ (idx : BitVec 7) (hi : idx.toNat < 85), i = .alphaLookup idx ∧
      t = s.finish 0 (.success 0x3#4 (byteWord (alpha ⟨idx.toNat, hi⟩)) [])) ∨
    (∃ byte, i = .revLookup byte ∧ t = s.finish 0 (.success 0x4#4 (revResult s.cfg byte) [])) ∨
    t = s.start (encode i) := by
  cases i with
  | encode len =>
    rcases transact_cases h with ⟨h1, -, rfl⟩ | ⟨-, rfl⟩
    · exact .inl ⟨len, rfl, h1, rfl⟩
    · exact .inr (.inr (.inr (.inr rfl)))
  | decode len =>
    rcases transact_cases h with ⟨h1, -, rfl⟩ | ⟨-, rfl⟩
    · exact .inr (.inl ⟨len, rfl, h1, rfl⟩)
    · exact .inr (.inr (.inr (.inr rfl)))
  | alphaLookup idx =>
    simp only [exec, execAlphaLookup] at h
    split at h <;> cases h
    exact .inr (.inr (.inl ⟨idx, ‹_›, rfl, rfl⟩))
  | revLookup byte =>
    cases h
    exact .inr (.inr (.inr (.inl ⟨byte, rfl, rfl⟩)))

/-- Everything the completion of a transaction can do: write the registers of one completion whose output is already out. -/
theorem completeActive_cases {t : Transaction} {s s' : State} (h : completeActive t s = .next s') :
    ∃ c : Completion, s' = s.retire c ∧
      ((∃ len, decode t.word = .ok (.encode len) ∧
          c = if len.toNat % 4 ≠ 0 then lengthError 4#4 0x1#4 len else .success 0x1#4 0#32 t.written) ∨
        (∃ len, decode t.word = .ok (.decode len) ∧
          c = if len.toNat % 5 ≠ 0 then lengthError 5#4 0x2#4 len else decodeEnd t.written t.failed) ∨
        (∃ (idx : BitVec 7) (hi : idx.toNat < 85), decode t.word = .ok (.alphaLookup idx) ∧
          c = .success 0x3#4 (byteWord (alpha ⟨idx.toNat, hi⟩)) []) ∨
        (∃ byte, decode t.word = .ok (.revLookup byte) ∧ c = .success 0x4#4 (revResult s.cfg byte) []) ∨
        (∃ r, decode t.word = .error r ∧ c = badCommand t.word)) := by
  unfold completeActive at h
  split at h
  · cases h; exact ⟨_, rfl, .inl ⟨_, ‹_›, rfl⟩⟩
  · cases h; exact ⟨_, rfl, .inr (.inl ⟨_, ‹_›, rfl⟩)⟩
  · unfold execAlphaLookup at h
    split at h <;> cases h
    exact ⟨_, finish_zero_eq_retire _ _ rfl, .inr (.inr (.inl ⟨_, ‹_›, ‹_›, rfl⟩))⟩
  · cases h; exact ⟨_, finish_zero_eq_retire _ _ rfl, .inr (.inr (.inr (.inl ⟨_, ‹_›, rfl⟩)))⟩
  · cases h; exact ⟨_, finish_zero_eq_retire _ _ rfl, .inr (.inr (.inr (.inr ⟨_, ‹_›, rfl⟩)))⟩

/-- Everything one byte move of a transaction can do: write a byte, consume a byte, or complete. -/
theorem tick_cases {t : Transaction} {s s' : State} (h : tick t s = .next s') :
    (∃ b bs, t.pending = b :: bs ∧ s.outReady = true ∧
      s' = { s with output := s.output ++ [b],
                    active := some { t with pending := bs, written := t.written ++ [b] } }) ∨
    (∃ b rest, t.pending = [] ∧ t.pos < inputNeed t.word ∧ s.input = b :: rest ∧
      s' = { s with input := rest, active := some (t.feed s.cfg b) }) ∨
    (t.pending = [] ∧ inputNeed t.word ≤ t.pos ∧ completeActive t s = .next s') := by
  unfold tick at h
  split at h
  next b bs hp =>
    split at h <;> cases h
    exact .inl ⟨b, bs, hp, ‹_›, rfl⟩
  next hp =>
    split at h
    next hlt =>
      split at h <;> cases h
      exact .inr (.inl ⟨_, _, hp, hlt, ‹_›, rfl⟩)
    next hlt => exact .inr (.inr ⟨hp, Nat.le_of_not_lt hlt, h⟩)

/-- Everything a byte-level step can do: a move of the transaction in progress, or the acceptance of the next word. -/
theorem byteStep_cases {s s' : State} (h : byteStep s = .next s') :
    s.resetAsserted = false ∧
    ((∃ t, s.active = some t ∧ tick t s = .next s') ∨
      (∃ cmd later, s.active = none ∧ s.commands = cmd :: later ∧ s' = State.start cmd { s with commands := later })) := by
  unfold byteStep at h
  split at h
  · cases h
  · refine ⟨by simp_all, ?_⟩
    split at h
    · exact .inl ⟨_, ‹_›, h⟩
    · split at h <;> cases h
      exact .inr ⟨_, _, ‹_›, ‹_›, rfl⟩

/-- Everything a step can do: a move of the transaction in progress, a legal command, or an illegal word. -/
theorem step_cases {s s' : State} (h : step s = .next s') :
    s.resetAsserted = false ∧
    ((∃ t, s.active = some t ∧ tick t s = .next s') ∨
      (∃ cmd later i, s.active = none ∧ s.commands = cmd :: later ∧ decode cmd = .ok i ∧
        exec i { s with commands := later } = .next s') ∨
      (∃ cmd later r, s.active = none ∧ s.commands = cmd :: later ∧ decode cmd = .error r ∧
        s' = State.finish 0 (badCommand cmd) { s with commands := later })) := by
  unfold step at h
  split at h
  · cases h
  · refine ⟨by simp_all, ?_⟩
    split at h
    · exact .inl ⟨_, ‹_›, h⟩
    · split at h
      · cases h
      · unfold runCommand at h
        split at h
        · exact .inr (.inl ⟨_, _, _, ‹_›, ‹_›, ‹_›, h⟩)
        · cases h; exact .inr (.inr ⟨_, _, _, ‹_›, ‹_›, ‹_›, rfl⟩)

/-- The step of an idle block is the run of its next word. -/
theorem step_idle {s : State} {cmd : Word} {later : List Word} (hr : s.resetAsserted = false) (ha : s.active = none)
    (hc : s.commands = cmd :: later) : step s = runCommand cmd { s with commands := later } := by
  simp [step, hr, ha, hc]

/-- The step of a busy block is a move of its transaction. -/
theorem step_busy {s : State} {t : Transaction} (hr : s.resetAsserted = false) (ha : s.active = some t) :
    step s = tick t s := by
  simp [step, hr, ha]

/-- One byte-level step and then `k` more. -/
theorem byteRun_succ (k : Nat) (s : State) :
    byteRun (k + 1) s =
      match byteStep s with
      | .next s' => byteRun k s'
      | .fault r => .fault r
      | .refused r => .refused r := rfl

/-- Byte-level steps compose. -/
theorem byteRun_add (j k : Nat) (s u : State) (h : byteRun j s = .next u) : byteRun (j + k) s = byteRun k u := by
  induction j generalizing s with
  | zero => cases h; rw [Nat.zero_add]
  | succ j ih =>
    rw [Nat.add_right_comm, byteRun_succ]
    rw [byteRun_succ] at h
    split at h
    · exact ih _ h
    · cases h
    · cases h

end Sys2Proof.Machine
end

