-- ==== Sys2Proof/Laws/HostActions.lean ====
section
/-! SUPPORT. What a block does while the host waits, what a call of the block can do, and what an action on one instance can do. -/

namespace Sys2Proof.Machine

/-- `ENC` and `DEC` have no expansion exactly where LEN cannot count the bytes (93_implementation_defined.md I21). -/
theorem streamProgram_eq_none_iff {cfg : Config} {command : BitVec 28 → Instr} {bytes : List Byte} :
    streamProgram cfg command bytes = none ↔ 2 ^ 28 ≤ bytes.length := by
  simp [streamProgram]

/-- Where there is an expansion, the command's LEN is the number of bytes the line sends (R57). -/
theorem streamProgram_of_lt {cfg : Config} (command : BitVec 28 → Instr) {bytes : List Byte} (h : bytes.length < 2 ^ 28) :
    ∃ len : BitVec 28, len.toNat = bytes.length ∧
      streamProgram cfg command bytes = some [.issue (encode (command len)), .send bytes, .recvAll] :=
  ⟨BitVec.ofNat 28 bytes.length, by simp; omega, by simp [streamProgram]; omega⟩

/-- A step keeps the parameters and the block's two inputs, `outReady` and `resetAsserted`. -/
theorem step_keeps_inputs {s s' : State} (h : step s = .next s') :
    s'.cfg = s.cfg ∧ s'.outReady = s.outReady ∧ s'.resetAsserted = s.resetAsserted := by
  obtain ⟨-, ⟨t, -, ht⟩ | ⟨_, _, i, -, -, -, he⟩ | ⟨_, _, _, -, -, -, rfl⟩⟩ := step_cases h
  · rcases tick_cases ht with ⟨_, _, -, -, rfl⟩ | ⟨_, _, -, -, -, rfl⟩ | ⟨-, -, hc⟩
    · exact ⟨rfl, rfl, rfl⟩
    · exact ⟨rfl, rfl, rfl⟩
    · obtain ⟨_, rfl, -⟩ := completeActive_cases hc; exact ⟨rfl, rfl, rfl⟩
  · rcases exec_cases he with ⟨_, -, -, rfl⟩ | ⟨_, -, -, rfl⟩ | ⟨_, _, -, rfl⟩ | ⟨_, -, rfl⟩ | rfl <;> exact ⟨rfl, rfl, rfl⟩
  · exact ⟨rfl, rfl, rfl⟩

/-- `settle` where the block has no step. -/
theorem settle_of_refused {s : State} {r : Refusal} (h : step s = .refused r) (k : Nat) : settle k s = s := by
  cases k with
  | zero => rfl
  | succ k => simp [settle, h]

/-- What every step keeps, `settle` keeps. -/
theorem settle_induct {P : State → Prop} (hP : ∀ s s', P s → step s = .next s' → P s') (k : Nat) (s : State) (h : P s) :
    P (settle k s) := by
  induction k generalizing s with
  | zero => exact h
  | succ k ih =>
    rw [settle]
    split
    · exact ih _ (hP _ _ h ‹_›)
    · exact h
    · exact h

@[simp] theorem rest_cfg (s : State) : s.rest.cfg = s.cfg :=
  settle_induct (P := fun u => u.cfg = s.cfg) (fun _ _ h hs => (step_keeps_inputs hs).1.trans h) _ _ rfl

/-- A block with nothing in progress and nothing presented is at rest. -/
theorem rest_of_idle {s : State} (ha : s.active = none) (hc : s.commands = []) : s.rest = s := by
  cases hr : s.resetAsserted
  · exact settle_of_refused (r := .waitingForCommand) (by simp [step, hr, ha, hc]) _
  · exact settle_of_refused (r := .heldInReset) (by simp [step, hr]) _

/-- Everything a call of a block at rest can do: run its own command on its own bytes to its completion. -/
theorem callAtRest_cases {cmd : Word} {bytes : List Byte} {s : State} {t : State} {o : CmdOutcome}
    (h : callAtRest cmd bytes s = .next (t, o)) :
    s.active = none ∧ s.commands = [] ∧ s.input = [] ∧ s.resetAsserted = false ∧ bytes.length ≤ inputNeed cmd ∧
    ∃ u : State, runCommand cmd { s with input := bytes } = .next u ∧ u.active = none ∧ u.history.head? = some o ∧
      t = { u with output := s.output } := by
  unfold callAtRest at h
  split at h
  · cases h
  next hidle =>
    obtain ⟨ha, hc⟩ : s.active = none ∧ s.commands = [] := by simpa [State.busy] using hidle
    split at h
    · cases h
    next hin =>
      have hi : s.input = [] := by simpa using hin
      have hr : s.resetAsserted = false := by
        cases hr : s.resetAsserted
        · rfl
        · simp [hostAct, hr] at h
      have hsend : hostAct (.send bytes) { s with commands := [cmd] } =
          if bytes.length ≤ inputNeed cmd then .next { s with commands := [cmd], input := bytes }
          else .refused .unowedInput := by
        simp [hostAct, hr, hi, State.owed, ha]
      rw [show hostAct (.issue cmd) s = .next { s with commands := [cmd] } by simp [hostAct, hr, hc]] at h
      simp only [hsend] at h
      by_cases hb : bytes.length ≤ inputNeed cmd
      · simp only [hb, if_true] at h
        rw [step_idle (s := { s with commands := [cmd], input := bytes }) (cmd := cmd) (later := []) hr ha rfl] at h
        refine ⟨ha, hc, hi, hr, hb, ?_⟩
        rw [show ({ s with input := bytes } : State) = { s with commands := [], input := bytes } by rw [← hc]]
        split at h
        · cases h
        · cases h
        next u hu =>
          split at h
          · cases h
          next hbusy =>
            split at h
            · cases h
            next o' _ ho =>
              cases h
              exact ⟨u, hu, by simpa [State.busy] using hbusy, by rw [ho]; rfl, rfl⟩
      · simp [hb] at h

/-- Everything an action on one instance can do: move that instance and no other. -/
theorem actOn_cases {k : Nat} {f : State → Host.Outcome State Fault Refusal} {system system' : List State}
    (h : actOn k f system = .next system') :
    ∃ s s', system[k]? = some s ∧ f s = .next s' ∧ system' = system.set k s' := by
  unfold actOn at h
  split at h
  · cases h
  next s hs =>
    split at h <;> cases h
    exact ⟨s, _, hs, ‹_›, rfl⟩

/-- Everything a host action on one instance can do: what it does to the block, and it is no reset. -/
theorem instanceAct_cases {a : HostAction} {s s' : State} (h : instanceAct a s = .next s') :
    hostAct a s = .next s' ∧ a ≠ .assertReset ∧ a ≠ .releaseReset ∧ s'.resetAsserted = s.resetAsserted := by
  cases a <;> simp only [instanceAct] at h <;> first | contradiction | refine ⟨h, by simp, by simp, ?_⟩
  all_goals
    simp only [hostAct] at h
    try split at h
    all_goals try split at h
    all_goals cases h
    all_goals rfl

end Sys2Proof.Machine
end

