-- ==== Sys2Proof/Laws/Luts.lean ====
section
/-! SUPPORT. The one search both columns of reverse_lookup_lut come from (40_luts.md R62): what it finds and when it finds none. -/

namespace Sys2Proof.Machine

theorem digitAt_alpha : ∀ d : Fin 85, digitAt ((alpha d).toNat - revOffset) = some d.val := by decide +kernel

theorem digitAt_eq_none {k : Nat} (h : ∀ d : Fin 85, (alpha d).toNat ≠ k + revOffset) : digitAt k = none := by
  rw [digitAt, List.findIdx?_eq_none_iff]
  intro x hx
  obtain ⟨i, hi, rfl⟩ := List.getElem_of_mem hx
  simpa [alpha] using h ⟨i, by rw [alphabet_length] at hi; exact hi⟩

end Sys2Proof.Machine
end

