-- ==== Sys2Proof/Laws/PerInstr.lean ====
section
/-! SUPPORT. One family of statements about every constructor of `Instr` as syntax: its word carries its OP and its ARG. -/

namespace Sys2Proof.Laws.OpField

/-- The OP and ARG fields of a command's word are the command's own (30_encoding.md R45, R46). -/
def Statement (i : Instr) : Prop := opField (Sys2Proof.encode i) = i.op ∧ argField (Sys2Proof.encode i) = i.arg

theorem encode (len : BitVec 28) : Statement (.encode len) := ⟨opField_append _ _, argField_append _ _⟩

theorem decode (len : BitVec 28) : Statement (.decode len) := ⟨opField_append _ _, argField_append _ _⟩

theorem alphaLookup (idx : BitVec 7) : Statement (.alphaLookup idx) := ⟨opField_append _ _, argField_append _ _⟩

theorem revLookup (byte : Byte) : Statement (.revLookup byte) := ⟨opField_append _ _, argField_append _ _⟩

end Sys2Proof.Laws.OpField
end

