-- ==== Sys2Proof/Tests/Slice0.lean ====
section
/-! SUPPORT. Tests, with every expected value taken from 95_test_vectors.md (or the rule a test names), and for every obligation that
has hypotheses a witness that meets them all: `witness_<Obligation>`. -/

namespace Sys2Proof.Tests
open Sys2Proof.Machine
set_option Elab.async false

/-! ### Helpers -/

/-- The ASCII codes of a text. -/
def ascii (text : String) : List Byte := text.toList.map fun c => BitVec.ofNat 8 c.toNat

/-- The smallest and the largest legal table. -/
def smallest (strict : Bool) : Config := { revSize := 94, strictAlphabet := strict }
def largest (strict : Bool) : Config := { revSize := 224, strictAlphabet := strict }

/-- After reset: one word on the command port and these bytes on the input stream. -/
def issued (cfg : Config) (cmd : Word) (bytes : List Byte) : State :=
  { State.reset with cfg := cfg, commands := [cmd], input := bytes }

/-- What the host reads after a step: the four registers, BUSY in STATUS, the output stream, and the input left. -/
def seen : Host.Outcome State Fault Refusal → Option (List Word × List Byte × List Byte)
  | .next s => some ([readReg s 0x0#4, readReg s 0x1#4, readReg s 0x2#4, readReg s 0x3#4], s.output, s.input)
  | .fault _ => none
  | .refused _ => none

/-- The reason an outcome is refused. -/
def reason {σ : Type} : Host.Outcome σ Fault Refusal → Option Refusal
  | .next _ => none
  | .fault _ => none
  | .refused r => some r

/-- What a word decodes to, as data that can be compared. -/
def decoded (cmd : Word) : Option Instr × Option BadReason :=
  match decode cmd with
  | .ok i => (some i, none)
  | .error r => (none, some r)

/-- An outcome is a next state of which `p` holds. -/
def nextThat {σ : Type} (o : Host.Outcome σ Fault Refusal) (p : σ → Bool) : Bool :=
  match o with
  | .next s => p s
  | .fault _ => false
  | .refused _ => false

theorem exists_next_of_nextThat {σ : Type} {o : Host.Outcome σ Fault Refusal} {p : σ → Bool} (h : nextThat o p = true) :
    ∃ s, o = .next s ∧ p s = true := by
  cases o with
  | next s => exact ⟨s, rfl, h⟩
  | fault r => simp [nextThat] at h
  | refused r => simp [nextThat] at h

theorem exists_next {σ : Type} {o : Host.Outcome σ Fault Refusal} (h : nextThat o (fun _ => true) = true) :
    ∃ s, o = .next s := by
  obtain ⟨s, hs, -⟩ := exists_next_of_nextThat h
  exact ⟨s, hs⟩

/-! ### Well-formedness -/

/-- The check of R48: IDX 85 is refused, and so is the largest field value. -/
theorem test_wf_refuses_large_index : (Instr.alphaLookup 85#7).wf = false ∧ (Instr.alphaLookup 127#7).wf = false := by decide

theorem test_wf_admits_last_index : (Instr.alphaLookup 84#7).wf = true := by decide

/-! ### Decoding words written out from the formats (30_encoding.md R45 to R49) -/

/-- `0001` then LEN = 8 in 28 bits. -/
theorem test_decode_encode_word :
    decoded 0b0001_0000000000000000000000001000#32 = (some (.encode 8#28), none) := by decide

/-- `0010` then LEN = 10 in 28 bits. -/
theorem test_decode_decode_word :
    decoded 0b0010_0000000000000000000000001010#32 = (some (.decode 10#28), none) := by decide

/-- `0011`, 21 zero bits, IDX = 43 in 7 bits. -/
theorem test_decode_alpha_word :
    decoded 0b0011_000000000000000000000_0101011#32 = (some (.alphaLookup 43#7), none) := by decide

/-- `0100`, 20 zero bits, BYTE = 0x23 in 8 bits. -/
theorem test_decode_rev_word :
    decoded 0b0100_00000000000000000000_00100011#32 = (some (.revLookup 0x23#8), none) := by decide

/-- Section 2.1's BAD rows, one per reason, and a reserved OP of section 2.6. -/
theorem test_decode_bad_words :
    decoded 0x30000055#32 = (none, some .alphaIndexTooLarge) ∧ decoded 0x3000007F#32 = (none, some .alphaIndexTooLarge) ∧
    decoded 0x38000000#32 = (none, some .alphaReservedBits) ∧ decoded 0x40000100#32 = (none, some .revReservedBits) ∧
    decoded 0x50000000#32 = (none, some .reservedOp) := by decide

/-- The host's two views of a word agree with the decoder. -/
theorem test_table_word :
    decodeTableWord 32 0x3000002B = some (.alphaLookup 43#7) ∧
    seen (step (State.reset.withFetchWord 32 0x3000002B)) =
      some ([0x30000000#32, 0#32, 0#32, 0x48#32], [], []) := by decide +kernel

/-! ### ENCODE (sections 1 and 2.4) -/

/-- W1. -/
theorem test_encode_hello_world :
    seen (step (issued .decided 0x10000008#32 [0x86#8, 0x4F#8, 0xD2#8, 0x6F#8, 0xB5#8, 0x59#8, 0xF7#8, 0x5B#8])) =
      some ([0x10000000#32, 0#32, 10#32, 0#32], ascii "HelloWorld", []) := by decide +kernel

/-- Section 2.4: LEN = 6; the byte after the command's own stays on the stream. -/
theorem test_encode_length_error :
    seen (step (issued .decided 0x10000006#32 [1#8, 2#8, 3#8, 4#8, 5#8, 6#8, 7#8])) =
      some ([0x10040001#32, 6#32, 0#32, 0#32], [], [7#8]) := by decide +kernel

/-! ### DECODE (section 2.5) -/

/-- `%nSc/` wraps to 68 in both settings. -/
theorem test_decode_wraps :
    seen (step (issued .decided 0x20000005#32 (ascii "%nSc/"))) =
      some ([0x20000000#32, 0#32, 4#32, 0#32], [0#8, 0#8, 0#8, 0x44#8], []) ∧
    seen (step (issued .strict 0x20000005#32 (ascii "%nSc/"))) =
      some ([0x20000000#32, 0#32, 4#32, 0#32], [0#8, 0#8, 0#8, 0x44#8], []) := by decide +kernel

/-- `Hello;orld` in both settings (also P5). -/
theorem test_decode_strict_and_compat :
    seen (step (issued .decided 0x2000000A#32 (ascii "Hello;orld"))) =
      some ([0x20000000#32, 0#32, 8#32, 0#32], [0x86#8, 0x4F#8, 0xD2#8, 0x6F#8, 0x00#8, 0xE3#8, 0xE7#8, 0x41#8], []) ∧
    seen (step (issued .strict 0x2000000A#32 (ascii "Hello;orld"))) =
      some ([0x20003B02#32, 5#32, 4#32, 0#32], [0x86#8, 0x4F#8, 0xD2#8, 0x6F#8], []) := by decide +kernel

/-! ### Lookups and BAD (sections 2.1, 2.2, 2.6) -/

theorem test_alpha_lookup_rows :
    seen (step (issued .decided 0x30000054#32 [])) = some ([0x30000000#32, 0#32, 0#32, 0x23#32], [], []) ∧
    seen (step (issued .decided 0x3000003F#32 [])) = some ([0x30000000#32, 0#32, 0#32, 0x2D#32], [], []) := by
  decide +kernel

theorem test_rev_lookup_rows :
    seen (step (issued .decided 0x40000023#32 [])) = some ([0x40000000#32, 0#32, 0#32, 0x354#32], [], []) ∧
    seen (step (issued .decided 0x4000007E#32 [])) = some ([0x40000000#32, 0#32, 0#32, 0x200#32], [], []) ∧
    seen (step (issued .decided 0x40000080#32 [])) = some ([0x40000000#32, 0#32, 0#32, 0#32], [], []) := by decide +kernel

theorem test_bad_command :
    seen (step (issued .decided 0x30000055#32 [9#8])) = some ([0x30000003#32, 0x30000055#32, 0#32, 0#32], [], [9#8]) ∧
    seen (step (issued .decided 0xFFFFFFFF#32 [])) = some ([0xF0000003#32, 0xFFFFFFFF#32, 0#32, 0#32], [], []) := by
  decide +kernel

/-! ### Waiting, registers and padding -/

/-- R116, R115: an idle block waits; a block held in reset runs nothing. -/
theorem test_idle_and_reset_wait :
    reason (step State.reset) = some .waitingForCommand ∧
    reason (step { issued .decided 0x3000002B#32 [] with resetAsserted := true }) = some .heldInReset := by decide +kernel

/-- R120, R25: three of four bytes sent, so the command is in progress and BUSY reads 1. -/
theorem test_encode_in_progress :
    seen (step (issued .decided 0x10000004#32 [1#8, 2#8, 3#8])) = some ([4#32, 0#32, 0#32, 0#32], [], [1#8, 2#8, 3#8]) := by
  decide +kernel

/-- R57's expansion of DEC, with R52's word for five characters. -/
theorem test_dec_expands :
    decProgram .decided [0x30#8, 0x30#8, 0x30#8, 0x30#8, 0x30#8] =
      some [.issue 0x20000005#32, .send [0x30#8, 0x30#8, 0x30#8, 0x30#8, 0x30#8], .recvAll] := by decide

/-- Section 2.7: ID in both settings. -/
theorem test_id_values : idWord .decided = 0x00006055#32 ∧ idWord .strict = 0x00016055#32 := by decide

/-- P4's first lookup as a host program: the host sees the port accept the word, and RESULT. -/
theorem test_program_shows_acceptance :
    nextThat (runProgram [.issue 0x3000002B#32, .read 0x3#4] State.reset)
      (fun r => decide (r.2 = [.accepted 0x3000002B#32, .register 0x3#4 0x00000048#32])) = true := by decide +kernel

/-- W4, W5 and section 2.8's Trim rows. -/
theorem test_pad_and_trim :
    pad [] = [4#8, 4#8, 4#8, 4#8] ∧ pad [0#8, 0#8, 0#8, 0#8] = [0#8, 0#8, 0#8, 0#8, 4#8, 4#8, 4#8, 4#8] ∧
    trim [0xAB#8, 0x01#8, 0x02#8] = [0xAB#8] ∧ trim [4#8, 4#8, 4#8] = [4#8, 4#8, 4#8] ∧ trim [0x01#8] = [] := by
  decide +kernel

/-! ### Witnesses: the hypotheses of each obligation can be met -/

theorem witness_RegisterReadPortMap :
    (State.reset.active = none ∧ busyBit State.reset.status = false) ∧ 5 ≤ (0x5#4).toNat ∧ 5 ≤ (0xF#4).toNat ∧
    (HostAction.setReady false ≠ .assertReset ∧ ∃ t : State, hostAct (.setReady false) State.reset = .next t) :=
  ⟨by decide, by decide, by decide, by decide, _, rfl⟩

theorem witness_IdHoldsTheParameters :
    ((smallest false).Legal ∧ (largest true).Legal) ∧
    ∃ t u v : State, step (issued .strict 0x40000023#32 []) = .next t ∧ byteStep (issued .strict 0x40000023#32 []) = .next u ∧
      hostAct .assertReset (issued .strict 0x40000023#32 []) = .next v := by
  obtain ⟨t, ht⟩ := exists_next (o := step (issued .strict 0x40000023#32 [])) (by decide +kernel)
  obtain ⟨u, hu⟩ := exists_next (o := byteStep (issued .strict 0x40000023#32 [])) (by decide +kernel)
  exact ⟨by decide, t, u, _, ht, hu, rfl⟩

theorem witness_RegistersHoldTheirValuesWhileBusy :
    ∃ t : State, step (issued .decided 0x10000004#32 []) = .next t ∧ t.active.isSome = true :=
  exists_next_of_nextThat (p := fun t : State => t.active.isSome) (by decide +kernel)

theorem witness_DecodeOfEncodeIsTheCommand :
    (Instr.encode 0x0FFFFFFF#28).wf = true ∧ (Instr.decode 0#28).wf = true ∧ (Instr.alphaLookup 84#7).wf = true ∧
    (Instr.revLookup 0xFF#8).wf = true := by decide

theorem witness_EncodeOfDecodeIsTheWord :
    decode 0x1FFFFFFF#32 = .ok (.encode 0x0FFFFFFF#28) ∧ decode 0x20000000#32 = .ok (.decode 0#28) ∧
    decode 0x30000054#32 = .ok (.alphaLookup 84#7) ∧ decode 0x400000FF#32 = .ok (.revLookup 0xFF#8) := by decide

theorem witness_AlphabetEntriesDistinctPrintable :
    alpha 84 = alpha 84 ∧ (0x20 ≤ (0x20#8).toNat ∧ (0x20#8).toNat ≤ 0x7F) ∧ (0x20 ≤ (0x7F#8).toNat ∧ (0x7F#8).toNat ≤ 0x7F) := by
  decide

/-- The first clause at digits 68 (byte 0x21) and 80 (byte 0x7D), the second at bytes 0x20 and 0x7E. -/
theorem witness_ReverseTableDerivedFromAlphabet :
    (alpha 68).toNat = 1 + 32 ∧ (alpha 80).toNat = 93 + 32 ∧
    (∀ d : Fin 85, (alpha d).toNat ≠ 0 + 32) ∧ (∀ d : Fin 85, (alpha d).toNat ≠ 94 + 32) := by decide +kernel

theorem witness_TablesInverseOnAlphabet : (smallest true).Legal ∧ (largest false).Legal := by decide

theorem witness_ReverseTableListing : 95 < 96 ∧ 96 ≤ 96 := by decide

theorem witness_AlphaLookupReturnsTheEntry :
    (0#7).toNat < 85 ∧ (84#7).toNat < 85 ∧ 85 ≤ (85#7).toNat ∧ 85 ≤ (127#7).toNat ∧
    (opField 0x30000055#32 = 0x3#4 ∧ 85 ≤ ((0x30000055#32).extractLsb' 0 7).toNat) ∧
    (opField 0x30000080#32 = 0x3#4 ∧ (0x30000080#32).extractLsb' 7 21 ≠ 0#21) := by decide

theorem witness_RevLookupReportsTheTable :
    inRange .decided 0x1F#8 = false ∧ inRange .decided 0x80#8 = false ∧ inRange .decided 0x20#8 = true ∧
    inRange .decided 0x7F#8 = true ∧ (opField 0x40000100#32 = 0x4#4 ∧ (0x40000100#32).extractLsb' 8 20 ≠ 0#20) := by decide

/-- Each illegal kind at its ends: OP 0x0 and 0x5; ALPHA_LOOKUP with IDX 85 and with ARG[7] set; REV_LOOKUP with ARG[8] set. -/
theorem witness_IllegalWordRunsAsBadCommand :
    ((issued .decided 0x30000055#32 []).resetAsserted = false ∧ (issued .decided 0x30000055#32 []).active = none ∧
      (issued .decided 0x30000055#32 []).commands = 0x30000055#32 :: []) ∧
    (opField 0x30000055#32 = 0x3#4 ∧ 85 ≤ ((argField 0x30000055#32).extractLsb' 0 7).toNat) ∧
    (opField 0x30000080#32 = 0x3#4 ∧ (argField 0x30000080#32).extractLsb' 7 21 ≠ 0#21) ∧
    opField 0x00000000#32 = 0x0#4 ∧ 5 ≤ (opField 0x50000000#32).toNat ∧
    (opField 0x40000100#32 = 0x4#4 ∧ (argField 0x40000100#32).extractLsb' 8 20 ≠ 0#20) := by decide

theorem witness_ChunkBytesAreBigEndian : bytesOfWord 0x864FD26F#32 = [0x86#8, 0x4F#8, 0xD2#8, 0x6F#8] := by decide

theorem witness_EncoderIsInjective : encWord 0xFFFFFFFF#32 = encWord 0xFFFFFFFF#32 := rfl

/-- One chunk, and LEN = 0 with the output held back. -/
theorem witness_EncodeWritesFiveCharactersPerChunk :
    ((4#28).toNat % 4 = 0 ∧ (4#28).toNat ≤ (issued .decided 0#32 (ascii "abcd")).input.length ∧
      ((issued .decided 0#32 (ascii "abcd")).outReady = true ∨ 4#28 = 0#28)) ∧
    ((0#28).toNat % 4 = 0 ∧ (0#28).toNat ≤ { State.reset with outReady := false }.input.length ∧
      ({ State.reset with outReady := false }.outReady = true ∨ 0#28 = 0#28)) := by decide

theorem witness_EncodeReportsLengthError :
    (3#28).toNat % 4 ≠ 0 ∧ (3#28).toNat ≤ (issued .decided 0#32 (ascii "abc")).input.length := by decide

theorem witness_EncodeOutputStaysInTheAlphabet :
    0x23#8 ∈ encChunk 0#8 0#8 0#8 0x54#8 ∧
    ∃ t : State, exec (.encode 4#28) (issued .decided 0#32 (ascii "abcd")) = .next t :=
  ⟨by decide +kernel, exists_next (by decide +kernel)⟩

theorem witness_EncodeOfConcatenation :
    (ascii "abcd").length % 4 = 0 ∧ (ascii "efgh").length % 4 = 0 ∧ 1 < (ascii "abcdefgh").length / 4 := by decide +kernel

/-- Each range at its ends, with the smallest and the largest legal table. -/
theorem witness_DecCharFollowsStrictAlphabet :
    (smallest true).Legal ∧ (largest false).Legal ∧ (0x1F#8).toNat < 32 ∧
    32 + (smallest true).revSize ≤ (0x7E#8).toNat ∧ 0x23#8 = alpha 84 ∧
    (32 ≤ (0x20#8).toNat ∧ (0x20#8).toNat < 32 + (smallest true).revSize ∧ ∀ d : Fin 85, 0x20#8 ≠ alpha d) ∧
    (32 ≤ (0xFF#8).toNat ∧ (0xFF#8).toNat < 32 + (largest false).revSize ∧ ∀ d : Fin 85, 0xFF#8 ≠ alpha d) := by
  decide +kernel

/-- `#####`: five digits 84, which wrap; and the largest chunk of the encoder. -/
theorem witness_AccumulatorWrapsModulo32Bits :
    decChar .decided 0x23#8 = some 84#8 ∧ Config.strict.Legal ∧
    encWord 0xFFFFFFFF#32 = [alpha 82, alpha 23, alpha 54, alpha 12, alpha 0] := by decide +kernel

/-- A chunk whose first INVALID character is its third, of two; one whose last is; and one that decodes. -/
theorem witness_ChunkReportsFirstInvalidCharacter :
    (2 < 5 ∧ decChar .decided ([0x30#8, 0x30#8, 0x80#8, 0x00#8, 0x30#8].getD 2 0#8) = none ∧
      (∀ q, q < 2 → decChar .decided ([0x30#8, 0x30#8, 0x80#8, 0x00#8, 0x30#8].getD q 0#8) ≠ none)) ∧
    (4 < 5 ∧ decChar .decided ([0x30#8, 0x30#8, 0x30#8, 0x30#8, 0x1F#8].getD 4 0#8) = none ∧
      (∀ q, q < 4 → decChar .decided ([0x30#8, 0x30#8, 0x30#8, 0x30#8, 0x1F#8].getD q 0#8) ≠ none)) ∧
    (∀ q, q < 5 → decChar .strict ([0x48#8, 0x65#8, 0x6C#8, 0x6C#8, 0x6F#8].getD q 0#8) ≠ none) := by decide +kernel

/-- One chunk, and LEN = 0 with the output held back. -/
theorem witness_DecodeWritesFourBytesPerChunk :
    (let s := issued .strict 0#32 (ascii "#####");
      (5#28).toNat % 5 = 0 ∧ (5#28).toNat ≤ s.input.length ∧ (s.outReady = true ∨ 5#28 = 0#28) ∧
      ∀ i, i < (5#28).toNat → decChar s.cfg (s.byteIn i) ≠ none) ∧
    (let s := { State.reset with outReady := false };
      (0#28).toNat % 5 = 0 ∧ (0#28).toNat ≤ s.input.length ∧ (s.outReady = true ∨ 0#28 = 0#28) ∧
      ∀ i, i < (0#28).toNat → decChar s.cfg (s.byteIn i) ≠ none) := by decide +kernel

theorem witness_DecodeReportsLengthError :
    (4#28).toNat % 5 ≠ 0 ∧ (4#28).toNat ≤ (issued .decided 0#32 (ascii "0000")).input.length := by decide +kernel

/-- An INVALID character in the second chunk; and one in the first, with the output held back. -/
theorem witness_DecodeReportsFirstInvalidCharacter :
    (let s := issued .strict 0#32 (ascii "Hello;orld");
      (10#28).toNat % 5 = 0 ∧ (10#28).toNat ≤ s.input.length ∧ (s.outReady = true ∨ 5 < 5) ∧ 5 < (10#28).toNat ∧
      decChar s.cfg (s.byteIn 5) = none ∧ ∀ q, q < 5 → decChar s.cfg (s.byteIn q) ≠ none) ∧
    (let s := { issued .decided 0#32 (ascii "0000" ++ [0x80#8]) with outReady := false };
      (5#28).toNat % 5 = 0 ∧ (5#28).toNat ≤ s.input.length ∧ (s.outReady = true ∨ 4 < 5) ∧ 4 < (5#28).toNat ∧
      decChar s.cfg (s.byteIn 4) = none ∧ ∀ q, q < 4 → decChar s.cfg (s.byteIn q) ≠ none) := by decide +kernel

theorem witness_DecodeOfConcatenation :
    (ascii "Hello").length % 5 = 0 ∧ (ascii "World").length % 5 = 0 ∧ (decodeBytes .strict 0 (ascii "Hello")).bad = none ∧
    (decodeBytes .strict 0 (ascii "World")).bad = none ∧ 0 < (ascii "Hello").length / 5 := by decide +kernel

/-- `%nSc0`, the largest chunk that does not overflow. -/
theorem witness_EncodeOfDecodeGivesTheTextBack :
    Config.strict.Legal ∧ ([82, 23, 54, 12, 0] : List (Fin 85)).length % 5 = 0 ∧
    (∀ k, k < ([82, 23, 54, 12, 0] : List (Fin 85)).length / 5 →
      exactValue (([82, 23, 54, 12, 0] : List (Fin 85)).getD (5 * k) 0).val
        (([82, 23, 54, 12, 0] : List (Fin 85)).getD (5 * k + 1) 0).val
        (([82, 23, 54, 12, 0] : List (Fin 85)).getD (5 * k + 2) 0).val
        (([82, 23, 54, 12, 0] : List (Fin 85)).getD (5 * k + 3) 0).val
        (([82, 23, 54, 12, 0] : List (Fin 85)).getD (5 * k + 4) 0).val < 2 ^ 32) := by decide +kernel

theorem reset_quiet : State.reset.Quiet := ⟨rfl, rfl, rfl, rfl, rfl⟩

theorem witness_ExactRoundTripThroughTheBlock :
    State.reset.Quiet ∧ State.reset.cfg.Legal ∧ (ascii "abcd").length % 4 = 0 ∧ (ascii "abcd").length ≤ 214748364 :=
  ⟨reset_quiet, by decide, by decide +kernel, by decide +kernel⟩

theorem witness_StepRunsTheDecodedCommand :
    (issued .decided 0x3000002B#32 []).resetAsserted = false ∧ (issued .decided 0x3000002B#32 []).active = none ∧
    (issued .decided 0x3000002B#32 []).commands = 0x3000002B#32 :: [] ∧
    decode 0x3000002B#32 = .ok (.alphaLookup 43#7) := by decide

theorem witness_FetchWordRunsNext : (Instr.alphaLookup 84#7).wf = true := by decide

/-- A step and a byte step of an idle block, and a byte of a transaction. -/
theorem witness_CommandWordsKeepTheirOrder :
    (∃ t : State, step (issued .decided 0x10000004#32 (ascii "abcd")) = .next t) ∧
    (∃ t : State, byteStep (issued .decided 0x10000004#32 (ascii "abcd")) = .next t) ∧
    ∃ t : State, step { State.reset with active := some (Transaction.fresh 0x10000004#32), input := [1#8] } = .next t :=
  ⟨exists_next (by decide +kernel), exists_next (by decide +kernel), exists_next (by decide +kernel)⟩

theorem witness_StreamsOnlyAdvance :
    ∃ t : State, step (issued .decided 0x10000004#32 (ascii "abcd")) = .next t ∧ t.output.length = 5 := by
  obtain ⟨t, h, p⟩ := exists_next_of_nextThat (o := step (issued .decided 0x10000004#32 (ascii "abcd")))
    (p := fun t : State => decide (t.output.length = 5)) (by decide +kernel)
  exact ⟨t, h, of_decide_eq_true p⟩

theorem witness_CompletedCommandConsumesItsBytes :
    (issued .decided 0x10000006#32 (ascii "abcdefg")).active = none ∧
    (issued .decided 0x10000006#32 (ascii "abcdefg")).commands = 0x10000006#32 :: [] ∧
    ∃ t : State, step (issued .decided 0x10000006#32 (ascii "abcdefg")) = .next t ∧ t.active = none := by
  refine ⟨rfl, rfl, ?_⟩
  obtain ⟨t, h, p⟩ := exists_next_of_nextThat (o := step (issued .decided 0x10000006#32 (ascii "abcdefg")))
    (p := fun t : State => decide (t.active = none)) (by decide +kernel)
  exact ⟨t, h, of_decide_eq_true p⟩

theorem witness_OneOutcomePerCommand :
    ∃ t : State, step (issued .decided 0x00000000#32 []) = .next t := exists_next (by decide +kernel)

/-- The same command after a success and after an error. -/
theorem witness_CommandResultIgnoresEarlierCommands :
    ∃ s₁ s₂ t₁ t₂ : State, (Instr.revLookup 0x23#8).wf = true ∧ s₁.cfg = s₂.cfg ∧ s₁.status ≠ s₂.status ∧
      s₁.input.take (inputNeed (encode (.revLookup 0x23#8))) = s₂.input.take (inputNeed (encode (.revLookup 0x23#8))) ∧
      exec (.revLookup 0x23#8) s₁ = .next t₁ ∧ exec (.revLookup 0x23#8) s₂ = .next t₂ ∧ t₁.active = none ∧ t₂.active = none :=
  ⟨State.reset, { State.reset with status := 0x10040001#32, errInfo := 6#32 }, _, _, by decide, rfl, by decide,
    by decide +kernel, rfl, rfl, rfl, rfl⟩

/-- Each disjunct: input missing, and output held back. -/
theorem witness_CommandThatMustWaitGoesIntoProgress :
    State.reset.input.length < (4#28).toNat ∧
    (let s := { State.reset with input := ascii "abcd", outReady := false };
      s.outReady = false ∧ (4#28).toNat % 4 = 0 ∧ 4#28 ≠ 0#28) ∧
    (let s := { State.reset with input := ascii "Hello", outReady := false };
      s.outReady = false ∧ (5#28).toNat % 5 = 0 ∧ 5#28 ≠ 0#28 ∧ ∀ i, i < 5 → decChar s.cfg (s.byteIn i) ≠ none) := by
  decide +kernel

/-- A transaction that has consumed nothing; and one with an output byte still to write. -/
theorem witness_WaitingTransactionHasNoStep :
    (let t := Transaction.fresh 0x10000004#32;
      let s := { State.reset with active := some t };
      s.resetAsserted = false ∧ s.active = some t ∧ t.pending = [] ∧ t.pos < inputNeed t.word ∧ s.input = []) ∧
    (let t := { Transaction.fresh 0x10000004#32 with pos := 4, pending := ascii "00000" };
      let s := { State.reset with active := some t, outReady := false };
      s.resetAsserted = false ∧ s.active = some t ∧ t.pending ≠ [] ∧ s.outReady = false) := by decide +kernel

theorem witness_ByteStepsReachTheTransactionStep :
    (issued .decided 0x10000004#32 (ascii "abcd")).resetAsserted = false ∧
    (issued .decided 0x10000004#32 (ascii "abcd")).active = none ∧
    (issued .decided 0x10000004#32 (ascii "abcd")).commands = 0x10000004#32 :: [] ∧
    ∃ t : State, step (issued .decided 0x10000004#32 (ascii "abcd")) = .next t :=
  ⟨rfl, rfl, rfl, exists_next (by decide +kernel)⟩

theorem witness_TransactionCompletesWithinItsInputLength :
    let t := { Transaction.fresh 0x10000004#32 with pos := 1, acc := 0x61#32 };
    let s := { State.reset with active := some t, input := ascii "bcd" };
    s.resetAsserted = false ∧ s.active = some t ∧ s.outReady = true ∧ inputNeed t.word - t.pos ≤ s.input.length := by
  decide +kernel

/-- A byte sent before any command; and a framed state with a step, a byte step and a host action. -/
theorem witness_FramingIsKept :
    (State.reset.resetAsserted = false ∧ State.reset.owed < State.reset.input.length + [0#8].length) ∧
    (issued .decided 0x10000004#32 (ascii "abcd")).Framed ∧
    (∃ t : State, step (issued .decided 0x10000004#32 (ascii "abcd")) = .next t) ∧
    (∃ t : State, byteStep (issued .decided 0x10000004#32 (ascii "abcd")) = .next t) ∧
    ∃ t : State, hostAct .recvAll (issued .decided 0x10000004#32 (ascii "abcd")) = .next t :=
  ⟨by decide, by unfold State.Framed; decide +kernel, exists_next (by decide +kernel), exists_next (by decide +kernel), _, rfl⟩

/-- Two blocks with different commands: the second steps, and the host acts on the first. -/
theorem witness_InstancesAreIndependent :
    (∃ sys' : List State,
      systemAct (.step 1) [issued .decided 0x3000002B#32 [], issued .strict 0x40000023#32 []] = .next sys') ∧
    ∃ sys' : List State,
      systemAct (.host 0 .recvAll) [issued .decided 0x3000002B#32 [], issued .strict 0x40000023#32 []] = .next sys' :=
  ⟨exists_next (by decide +kernel), exists_next (by decide +kernel)⟩

/-- A system of two instances with different parameters, after reset and after a step of one. -/
theorem witness_InstancesStartTogether :
    StartedTogether [State.reset, issued .strict 0x40000023#32 []] ∧
    (∃ sys' : List State, systemAct (.step 1) [State.reset, issued .strict 0x40000023#32 []] = .next sys') ∧
    ([State.reset] : List State)[0]? = some State.reset ∧
    (releaseInstances (resetInstances [State.reset]))[0]? = some State.reset ∧ State.reset.cfg = (issued .decided 0#32 []).cfg :=
  ⟨by unfold StartedTogether; decide, exists_next (by decide +kernel), rfl, by decide, rfl⟩

/-- A state in the middle of a DECODE whose first character was INVALID. -/
def drainingState : State :=
  { State.reset with
    active := some { Transaction.fresh 0x20000005#32 with pos := 1, failed := some (0x80#8, 0) }
    input := [1#8, 2#8, 3#8, 4#8] }

theorem drainingState_inv : drainingState.Inv where
  legal := by decide
  registers :=
    { reserved_low := by decide, reserved_high := by decide, errByte_only_invalid := by decide,
      errMult_only_length := by decide, length_mult := by decide, invalid_is_decode := by decide, bad_word := by decide,
      ok_info := by decide, no_output := by decide, error_result := by decide, result_width := by decide,
      count_bound := by decide }
  transaction := by
    rintro t ht
    simp only [drainingState, Option.some.injEq] at ht
    subst ht
    exact ⟨by decide +kernel, show (0 : Nat) < 1 ∧ ([] : List Byte) = [] ∧ ([] : List Byte).length = 4 * (0 / 5) by decide⟩
  quiet_in_reset := by decide

theorem witness_InvariantKeptByEveryStep :
    drainingState.Inv ∧ (∃ t : State, step drainingState = .next t) ∧ ∃ t : State, byteStep drainingState = .next t :=
  ⟨drainingState_inv, exists_next (by decide +kernel), exists_next (by decide +kernel)⟩

theorem witness_InvariantKeptByHostActions :
    drainingState.Inv ∧ ∃ t : State, hostAct .assertReset drainingState = .next t := ⟨drainingState_inv, _, rfl⟩

/-- Each clause of Trim at its ends: 5 and 4 on five bytes, a value beyond the length, and 0. -/
theorem witness_TrimRemovesTheMarker :
    4 < (5#8).toNat ∧ (ascii "abcd").length + 1 < (6#8).toNat ∧ ((4#8).toNat ≤ 4 ∧ (4#8).toNat ≤ (ascii "abc").length + 1) ∧
    ((0#8).toNat ≤ 4 ∧ (0#8).toNat ≤ ([] : List Byte).length + 1) := by decide +kernel

theorem witness_PaddedRoundTripThroughTheBlock :
    State.reset.Quiet ∧ State.reset.cfg.Legal ∧ ([] : List Byte).length ≤ 214748363 :=
  ⟨reset_quiet, by decide, by decide⟩

/-- A call and a padded call that answer, `00rr9`, with an earlier DECODE of wrong length still on the port for the second; a text
of four characters; and section 2.8's `0000` 80, all on a block that is quiet. -/
theorem witness_PaddedDecodePropagatesErrors :
    (∃ (t : State) (raw : List Byte),
      call (encode (.decode (BitVec.ofNat 28 (ascii "00rr9").length))) (ascii "00rr9") State.reset = .next (t, .ok raw)) ∧
    (∃ (t : State) (o : CmdOutcome),
      paddedDecode (ascii "00rr9") (issued .decided 0x20000003#32 [1#8, 2#8, 3#8]) = .next (t, o)) ∧
    State.reset.rest.Quiet ∧ ((ascii "0000").length < 2 ^ 28 ∧ (ascii "0000").length % 5 ≠ 0) ∧
    (let text := ascii "00rr9";
      text.length < 2 ^ 28 ∧ text.length % 5 = 0 ∧ (decodeBytes State.reset.cfg 0 text).bad = none) ∧
    (let text := ascii "0000" ++ [0x80#8];
      text.length < 2 ^ 28 ∧ text.length % 5 = 0 ∧ 4 < text.length ∧ decChar State.reset.cfg (text.getD 4 0#8) = none ∧
      (decodeBytes State.reset.cfg 0 text).bad = some (0x80#8, 4) ∧
      ∀ q, q < 4 → decChar State.reset.cfg (text.getD q 0#8) ≠ none) := by
  refine ⟨?_, ?_, by rw [rest_of_idle rfl rfl]; exact reset_quiet, by decide +kernel, by decide +kernel, by decide +kernel⟩
  · obtain ⟨⟨t, o⟩, h, p⟩ := exists_next_of_nextThat
      (o := call (encode (.decode (BitVec.ofNat 28 (ascii "00rr9").length))) (ascii "00rr9") State.reset)
      (p := fun r : State × CmdOutcome => decide (r.2 = .ok [0#8, 3#8, 3#8, 3#8])) (by decide +kernel)
    exact ⟨t, [0#8, 3#8, 3#8, 3#8], by rw [h, ← of_decide_eq_true p]⟩
  · obtain ⟨⟨t, o⟩, h⟩ := exists_next
      (o := paddedDecode (ascii "00rr9") (issued .decided 0x20000003#32 [1#8, 2#8, 3#8])) (by decide +kernel)
    exact ⟨t, o, h⟩

/-- A quiet block; the longest buffer and one more; and an earlier ENCODE 3 with its bytes still on the port and the stream, after
which PaddedEncode of one byte gives section 2.8's `00rr9` and not ENCODE 3's LengthError. -/
theorem witness_PaddedEncodeNeverFails :
    State.reset.rest.Quiet ∧ ([] : List Byte).length ≤ 2 ^ 28 - 5 ∧
    (List.replicate (2 ^ 28 - 5) 0#8).length ≤ 2 ^ 28 - 5 ∧ 2 ^ 28 - 5 < (List.replicate (2 ^ 28 - 4) 0#8).length ∧
    ∃ (t : State) (o : CmdOutcome),
      paddedEncode [0#8] (issued .decided 0x10000003#32 [1#8, 2#8, 3#8]) = .next (t, o) ∧ o = .ok (ascii "00rr9") := by
  refine ⟨by rw [rest_of_idle rfl rfl]; exact reset_quiet, by simp, by rw [List.length_replicate],
    by rw [List.length_replicate]; omega, ?_⟩
  obtain ⟨⟨t, o⟩, h, p⟩ := exists_next_of_nextThat
    (o := paddedEncode [0#8] (issued .decided 0x10000003#32 [1#8, 2#8, 3#8]))
    (p := fun r : State × CmdOutcome => decide (r.2 = .ok (ascii "00rr9"))) (by decide +kernel)
  exact ⟨t, o, h, of_decide_eq_true p⟩

/-- An acceptance; a step with a word waiting behind a command in progress; and a port that becomes free. -/
theorem witness_PortAcceptanceShowsCompletion :
    (∃ t : State, step (issued .decided 0x3000002B#32 []) = .next t ∧
      stepObserved (issued .decided 0x3000002B#32 []) = [.accepted 0x3000002B#32] ∧
      observe .pollPort (issued .decided 0x3000002B#32 []) = [.portFree false] ∧ observe .pollPort t = [.portFree true]) ∧
    (let s := { issued .decided 0x3000002B#32 [1#8] with active := some (Transaction.fresh 0x10000004#32) };
      (∃ t : State, step s = .next t) ∧ busyBit (readReg s 0x0#4) = true) := by
  refine ⟨?_, exists_next (by decide +kernel), by decide +kernel⟩
  obtain ⟨t, h, p⟩ := exists_next_of_nextThat (o := step (issued .decided 0x3000002B#32 []))
    (p := fun t : State => decide (observe .pollPort t = [.portFree true])) (by decide +kernel)
  exact ⟨t, h, by decide +kernel, by decide +kernel, of_decide_eq_true p⟩

/-- Each clause: steps and host actions that answer, and some that are refused, with times that are none of the state's. -/
theorem witness_NoRuleDependsOnLatency :
    (∃ t : State, step (issued .decided 0x3000002B#32 []) = .next t) ∧
    (∃ t : State, byteStep (issued .decided 0x3000002B#32 []) = .next t) ∧
    step State.reset = .refused .waitingForCommand ∧ byteStep State.reset = .refused .waitingForCommand ∧
    (∃ t : State, hostAct .recvAll State.reset = .next t) ∧ hostAct (.recv 1) State.reset = .refused .waitingForOutput ∧
    (State.reset.withLatency [7]).latency = 7 :=
  ⟨exists_next (by decide +kernel), exists_next (by decide +kernel), rfl, rfl, ⟨_, rfl⟩, rfl, rfl⟩

end Sys2Proof.Tests
end

section
/-! PROOFS. Family 00_scope.md: exactly one outcome per completed command (R11, R19), and the independence of several instances
(R14, R112). -/

namespace Sys2Proof.Machine

/-! ### The ERR_KIND of a completion is its outcome's kind -/

@[simp] theorem errKind_mkSTATUS (kind : BitVec 2) (byte : Byte) (mult op : BitVec 4) :
    errKind (mkSTATUS kind byte mult op) = kind :=
  BitVec.extractLsb'_append_eq_right

/-- The completion's ERR_KIND is the one that belongs to its outcome (R19). -/
def Completion.KindShown (c : Completion) : Prop := errKind c.status = c.outcome.kind

theorem success_kindShown (op : BitVec 4) (result : Word) (out : List Byte) :
    (Completion.success op result out).KindShown :=
  errKind_mkSTATUS _ _ _ _

/-- An error shows the kind it is raised with. -/
theorem raise_kindShown {kind : BitVec 2} {byte : Byte} {mult op : BitVec 4} {info : Word} {out : List Byte}
    {outcome : CmdOutcome} (h : kind = outcome.kind) :
    (Completion.raise kind byte mult op info out outcome).KindShown :=
  (errKind_mkSTATUS _ _ _ _).trans h

theorem lengthError_kindShown (mult op : BitVec 4) (len : BitVec 28) : (lengthError mult op len).KindShown :=
  raise_kindShown rfl

theorem badCommand_kindShown (cmd : Word) : (badCommand cmd).KindShown := raise_kindShown rfl

theorem decodeEnd_kindShown (out : List Byte) (bad : Option (Byte × Nat)) : (decodeEnd out bad).KindShown := by
  cases bad with
  | none => exact success_kindShown _ _ _
  | some b => exact raise_kindShown rfl

/-- A command with a length check shows the kind of whichever of its two ends it takes (R75, R86). -/
theorem lengthChecked_kindShown {p : Prop} [Decidable p] (mult op : BitVec 4) (len : BitVec 28) {c : Completion}
    (hc : c.KindShown) : (if p then lengthError mult op len else c).KindShown := by
  split
  · exact lengthError_kindShown _ _ _
  · exact hc

theorem encodeCompletion_kindShown (len : BitVec 28) (bytes : List Byte) : (encodeCompletion len bytes).KindShown :=
  lengthChecked_kindShown _ _ _ (success_kindShown _ _ _)

theorem decodeCompletion_kindShown (cfg : Config) (len : BitVec 28) (chars : List Byte) :
    (decodeCompletion cfg len chars).KindShown :=
  lengthChecked_kindShown _ _ _ (decodeEnd_kindShown _ _)

/-! ### What a move of the block does to the record of outcomes -/

/-- State `t` follows one whose record of outcomes was `past`: it is in a transaction and has recorded nothing, or it is idle and has
recorded one outcome more, of the kind its ERR_KIND shows. -/
def State.RecordsAfter (past : List CmdOutcome) (t : State) : Prop :=
  (t.active.isSome = true ∧ t.history = past) ∨
    (t.active = none ∧ ∃ o : CmdOutcome, t.history = o :: past ∧ errKind t.status = o.kind)

theorem retire_recordsAfter {c : Completion} (hc : c.KindShown) (s : State) :
    (s.retire c).RecordsAfter s.history :=
  .inr ⟨retire_active c s, c.outcome, retire_history c s, hc⟩

theorem finish_recordsAfter {c : Completion} (hc : c.KindShown) (n : Nat) (s : State) :
    (s.finish n c).RecordsAfter s.history :=
  .inr ⟨finish_active n c s, c.outcome, finish_history n c s, hc⟩

theorem start_recordsAfter (cmd : Word) (s : State) : (s.start cmd).RecordsAfter s.history :=
  .inl ⟨rfl, start_history cmd s⟩

theorem exec_recordsAfter {i : Instr} {s t : State} (h : exec i s = .next t) : t.RecordsAfter s.history := by
  rcases exec_cases h with ⟨_, -, -, rfl⟩ | ⟨_, -, -, rfl⟩ | ⟨_, _, -, rfl⟩ | ⟨_, -, rfl⟩ | rfl
  · exact finish_recordsAfter (encodeCompletion_kindShown _ _) _ _
  · exact finish_recordsAfter (decodeCompletion_kindShown _ _ _) _ _
  · exact finish_recordsAfter (success_kindShown _ _ _) _ _
  · exact finish_recordsAfter (success_kindShown _ _ _) _ _
  · exact start_recordsAfter _ _

theorem completeActive_recordsAfter {tr : Transaction} {s t : State} (h : completeActive tr s = .next t) :
    t.RecordsAfter s.history := by
  obtain ⟨c, rfl, hc⟩ := completeActive_cases h
  refine retire_recordsAfter ?_ s
  rcases hc with ⟨_, -, rfl⟩ | ⟨_, -, rfl⟩ | ⟨_, _, -, rfl⟩ | ⟨_, -, rfl⟩ | ⟨_, -, rfl⟩
  · exact lengthChecked_kindShown _ _ _ (success_kindShown _ _ _)
  · exact lengthChecked_kindShown _ _ _ (decodeEnd_kindShown _ _)
  · exact success_kindShown _ _ _
  · exact success_kindShown _ _ _
  · exact badCommand_kindShown _

/-- Moving a byte keeps the transaction and the record; the completion is `completeActive`'s. -/
theorem tick_recordsAfter {tr : Transaction} {s t : State} (h : tick tr s = .next t) : t.RecordsAfter s.history := by
  rcases tick_cases h with ⟨_, _, -, -, rfl⟩ | ⟨_, _, -, -, -, rfl⟩ | ⟨-, -, hc⟩
  · exact .inl ⟨rfl, rfl⟩
  · exact .inl ⟨rfl, rfl⟩
  · exact completeActive_recordsAfter hc

theorem step_recordsAfter {s t : State} (h : step s = .next t) : t.RecordsAfter s.history := by
  obtain ⟨-, ⟨_, -, ht⟩ | ⟨_, later, _, -, -, -, he⟩ | ⟨_, _, _, -, -, -, rfl⟩⟩ := step_cases h
  · exact tick_recordsAfter ht
  · exact exec_recordsAfter (s := { s with commands := later }) he
  · exact finish_recordsAfter (badCommand_kindShown _) _ _

theorem byteStep_recordsAfter {s t : State} (h : byteStep s = .next t) : t.RecordsAfter s.history := by
  obtain ⟨-, ⟨_, -, ht⟩ | ⟨_, _, -, -, rfl⟩⟩ := byteStep_cases h
  · exact tick_recordsAfter ht
  · exact start_recordsAfter _ _

/-- Settles O39: every way a step or a byte step ends is a byte move, an acceptance, or a completion whose STATUS and outcome are
built together. -/
theorem oneOutcomePerCommand : Obligations.OneOutcomePerCommand := by
  rintro s t (h | h)
  · exact step_recordsAfter h
  · exact byteStep_recordsAfter h

/-! ### Several instances -/

/-- A move of the `k`-th block leaves every other one as it was and is what the `k`-th does alone (R14, R112). -/
theorem actOn_frame {k : Nat} {f : State → Host.Outcome State Fault Refusal} {sys sys' : List State}
    (h : actOn k f sys = .next sys') :
    sys'.length = sys.length ∧ (∀ j, j ≠ k → sys'[j]? = sys[j]?) ∧
      ∃ s t, sys[k]? = some s ∧ sys'[k]? = some t ∧ f s = .next t := by
  obtain ⟨s, t, hs, ht, rfl⟩ := actOn_cases h
  obtain ⟨hk, -⟩ := List.getElem?_eq_some_iff.1 hs
  exact ⟨List.length_set, fun j hj => List.getElem?_set_ne hj.symm, s, t, hs, List.getElem?_set_self hk, ht⟩

/-- Settles O47: both kinds of action are `actOn`, and a host action on one block that is not refused is the block's own. -/
theorem instancesAreIndependent : Obligations.InstancesAreIndependent := by
  refine fun k sys sys' => ⟨fun h => actOn_frame h, fun a h => ?_⟩
  obtain ⟨hlen, hother, s, t, hs, ht, hact⟩ := actOn_frame h
  exact ⟨hlen, hother, s, t, hs, ht, (instanceAct_cases hact).1⟩

end Sys2Proof.Machine
end

section
/-! PROOFS. Family 10_state.md: the fields of STATUS and ID (R18, R23), the register read port (R17, R34), and what the registers read
while a command is in progress (R25, R27). -/

namespace Sys2Proof.Machine

/-! ### The fields of STATUS -/

section StatusFields
variable (kind : BitVec 2) (byte : Byte) (mult op : BitVec 4)

@[simp] theorem busyBit_mkSTATUS : busyBit (mkSTATUS kind byte mult op) = false := by
  simp only [busyBit, mkSTATUS, BitVec.getLsbD_append]
  rfl

@[simp] theorem errByte_mkSTATUS : errByte (mkSTATUS kind byte mult op) = byte := by
  rw [errByte, mkSTATUS]
  iterate 3 rw [BitVec.extractLsb'_append_eq_of_le (by decide)]
  exact BitVec.extractLsb'_append_eq_right

@[simp] theorem errMult_mkSTATUS : errMult (mkSTATUS kind byte mult op) = mult := by
  rw [errMult, mkSTATUS]
  iterate 4 rw [BitVec.extractLsb'_append_eq_of_le (by decide)]
  exact BitVec.extractLsb'_append_eq_right

@[simp] theorem lastOp_mkSTATUS : lastOp (mkSTATUS kind byte mult op) = op := by
  rw [lastOp, mkSTATUS]
  iterate 5 rw [BitVec.extractLsb'_append_eq_of_le (by decide)]
  exact BitVec.extractLsb'_append_eq_left

@[simp] theorem reservedLow_mkSTATUS : (mkSTATUS kind byte mult op).extractLsb' 3 5 = 0#5 := by
  rw [mkSTATUS]
  iterate 2 rw [BitVec.extractLsb'_append_eq_of_le (by decide)]
  exact BitVec.extractLsb'_append_eq_right

@[simp] theorem reservedHigh_mkSTATUS : (mkSTATUS kind byte mult op).extractLsb' 20 8 = 0#8 := by
  rw [mkSTATUS]
  iterate 5 rw [BitVec.extractLsb'_append_eq_of_le (by decide)]
  exact BitVec.extractLsb'_append_eq_right

end StatusFields

/-- Settles O4: each field is what is left when the fields below it are skipped. -/
theorem statusWordFields : Obligations.StatusWordFields := fun _ _ _ _ =>
  ⟨errKind_mkSTATUS .., busyBit_mkSTATUS .., reservedLow_mkSTATUS .., errByte_mkSTATUS .., errMult_mkSTATUS ..,
    reservedHigh_mkSTATUS .., lastOp_mkSTATUS ..⟩

/-- Clearing a BUSY bit that is clear changes nothing. -/
theorem withBusy_false_of_clear {st : Word} (h : busyBit st = false) : withBusy false st = st := by
  refine BitVec.eq_of_getLsbD_eq fun i hi => ?_
  simp only [withBusy, BitVec.getLsbD_append, BitVec.getLsbD_extractLsb']
  unfold busyBit at h
  grind

/-! ### The fields of ID -/

section IdFields
variable (cfg : Config)

theorem idWord_alphaSize : (idWord cfg).extractLsb' 0 8 = 85#8 := by
  rw [idWord, alphaSize_val]
  exact BitVec.extractLsb'_append_eq_right

theorem idWord_revSize : (idWord cfg).extractLsb' 8 8 = BitVec.ofNat 8 cfg.revSize := by
  rw [idWord, BitVec.extractLsb'_append_eq_of_le (by decide)]
  exact BitVec.extractLsb'_append_eq_right

theorem idWord_strictAlphabet : (idWord cfg).getLsbD 16 = cfg.strictAlphabet := by
  simp only [idWord, BitVec.getLsbD_append]
  simp

theorem idWord_reserved : (idWord cfg).extractLsb' 17 15 = 0#15 := by
  rw [idWord]
  iterate 2 rw [BitVec.extractLsb'_append_eq_of_le (by decide)]
  exact BitVec.extractLsb'_append_eq_left

end IdFields

/-! ### The register read port -/

section ReadPort
variable (s : State)

@[simp] theorem readReg_status : readReg s 0x0#4 = withBusy s.active.isSome s.status := rfl
@[simp] theorem readReg_errInfo : readReg s 0x1#4 = s.errInfo := rfl
@[simp] theorem readReg_outCount : readReg s 0x2#4 = s.outCount := rfl
@[simp] theorem readReg_result : readReg s 0x3#4 = s.result := rfl
@[simp] theorem readReg_id : readReg s 0x4#4 = idWord s.cfg := rfl

theorem readReg_reserved {a : BitVec 4} (h : 5 ≤ a.toNat) : readReg s a = 0#32 := by
  have hne : ∀ b : BitVec 4, b.toNat < 5 → a ≠ b := fun b hb hab => by subst hab; omega
  simp only [readReg, hne 0x0#4 (by decide), hne 0x1#4 (by decide), hne 0x2#4 (by decide), hne 0x3#4 (by decide),
    hne 0x4#4 (by decide), if_false]

end ReadPort

/-- Settles O1: the reset state's registers are read off it. -/
theorem registersReadZeroAfterReset : Obligations.RegistersReadZeroAfterReset := by
  refine ⟨rfl, ?_, rfl, rfl, rfl, ?_⟩
  · rw [readReg_status]; decide
  · rw [readReg_id]; decide

/-- Everything the register read port shows but BUSY is the same in `t` as in `s`. -/
structure State.SameRegisters (s t : State) : Prop where
  cfg : t.cfg = s.cfg
  status : t.status = s.status
  errInfo : t.errInfo = s.errInfo
  outCount : t.outCount = s.outCount
  result : t.result = s.result

theorem State.SameRegisters.readReg_of_ne {s t : State} (h : s.SameRegisters t) {a : BitVec 4} (ha : a ≠ 0x0#4) :
    readReg t a = readReg s a := by
  simp only [readReg, ha, if_false, h.errInfo, h.outCount, h.result, h.cfg]

theorem State.SameRegisters.readReg_eq {s t : State} (h : s.SameRegisters t) (hactive : t.active = s.active)
    (a : BitVec 4) : readReg t a = readReg s a := by
  by_cases ha : a = 0x0#4
  · rw [ha, readReg_status, readReg_status, h.status, hactive]
  · exact h.readReg_of_ne ha

/-- No host action but asserting reset touches the registers or the transaction (R34). -/
theorem hostAct_frame {a : HostAction} {s t : State} (ha : a ≠ .assertReset) (h : hostAct a s = .next t) :
    s.SameRegisters t ∧ t.active = s.active := by
  cases a with
  | issue | recv =>
    simp only [hostAct] at h
    split at h <;> cases h
    exact ⟨⟨rfl, rfl, rfl, rfl, rfl⟩, rfl⟩
  | send =>
    simp only [hostAct] at h
    split at h
    · cases h
    · split at h <;> cases h
      exact ⟨⟨rfl, rfl, rfl, rfl, rfl⟩, rfl⟩
  | recvAll | read | pollPort | setReady | releaseReset => cases h; exact ⟨⟨rfl, rfl, rfl, rfl, rfl⟩, rfl⟩
  | assertReset => exact absurd rfl ha

/-- Settles O2: the map address by address, and the frame of the host's actions. -/
theorem registerReadPortMap : Obligations.RegisterReadPortMap := by
  refine fun s => ⟨fun hidle hclear => ?_, rfl, rfl, rfl, rfl, fun _ ha => readReg_reserved s ha, fun _ => rfl,
    fun act t hact h a => ?_⟩
  · rw [readReg_status, hidle]; exact withBusy_false_of_clear hclear
  · obtain ⟨hsame, hactive⟩ := hostAct_frame hact h
    exact hsame.readReg_eq hactive a

/-! ### The parameters are constant -/

/-- A byte-level step is a step, or it accepts a word and moves nothing else. -/
theorem byteStep_eq_step_or_start {s t : State} (h : byteStep s = .next t) :
    step s = .next t ∨ ∃ cmd later, s.commands = cmd :: later ∧ t = State.start cmd { s with commands := later } := by
  obtain ⟨hr, ⟨tr, ha, ht⟩ | ⟨cmd, later, -, hc, rfl⟩⟩ := byteStep_cases h
  · exact .inl ((step_busy hr ha).trans ht)
  · exact .inr ⟨cmd, later, hc, rfl⟩

theorem byteStep_cfg {s t : State} (h : byteStep s = .next t) : t.cfg = s.cfg := by
  rcases byteStep_eq_step_or_start h with hstep | ⟨_, _, -, rfl⟩
  · exact (step_keeps_inputs hstep).1
  · rfl

theorem hostAct_cfg {a : HostAction} {s t : State} (h : hostAct a s = .next t) : t.cfg = s.cfg := by
  by_cases ha : a = .assertReset
  · subst ha; cases h; exact abandon_cfg s
  · exact (hostAct_frame ha h).1.cfg

/-- Settles O3: ID's fields one by one, and the parameters it is made of stay. -/
theorem idHoldsTheParameters : Obligations.IdHoldsTheParameters := by
  refine ⟨fun s hlegal => ?_, by decide, fun s t h => ?_⟩
  · obtain ⟨-, hmax⟩ := hlegal
    rw [readReg_id, idWord_alphaSize, idWord_revSize, BitVec.toNat_ofNat]
    exact ⟨rfl, Nat.mod_eq_of_lt (by omega), idWord_strictAlphabet _, idWord_reserved _⟩
  · have hcfg : t.cfg = s.cfg := by
      rcases h with h | h | ⟨a, h⟩
      · exact (step_keeps_inputs h).1
      · exact byteStep_cfg h
      · exact hostAct_cfg h
    exact ⟨hcfg, by rw [readReg_id, readReg_id, hcfg]⟩

/-! ### The registers while a command is in progress -/

/-- A byte move of a transaction leaves the registers as they were, or the transaction is over. -/
theorem tick_idle_or_sameRegisters {tr : Transaction} {s t : State} (h : tick tr s = .next t) :
    t.active = none ∨ s.SameRegisters t := by
  rcases tick_cases h with ⟨_, _, -, -, rfl⟩ | ⟨_, _, -, -, -, rfl⟩ | ⟨-, -, hc⟩
  · exact .inr ⟨rfl, rfl, rfl, rfl, rfl⟩
  · exact .inr ⟨rfl, rfl, rfl, rfl, rfl⟩
  · obtain ⟨c, rfl, -⟩ := completeActive_cases hc
    exact .inl (retire_active c s)

theorem start_sameRegisters (cmd : Word) (later : List Word) (s : State) :
    s.SameRegisters (State.start cmd { s with commands := later }) :=
  ⟨rfl, rfl, rfl, rfl, rfl⟩

/-- The registers change at a completion and at no other step (R27). -/
theorem step_idle_or_sameRegisters {s t : State} (h : step s = .next t) : t.active = none ∨ s.SameRegisters t := by
  obtain ⟨-, ⟨_, -, ht⟩ | ⟨_, later, i, -, -, -, he⟩ | ⟨_, _, _, -, -, -, rfl⟩⟩ := step_cases h
  · exact tick_idle_or_sameRegisters ht
  · rcases exec_cases he with ⟨_, -, -, rfl⟩ | ⟨_, -, -, rfl⟩ | ⟨_, _, -, rfl⟩ | ⟨_, -, rfl⟩ | rfl
    · exact .inl (finish_active ..)
    · exact .inl (finish_active ..)
    · exact .inl (finish_active ..)
    · exact .inl (finish_active ..)
    · exact .inr (start_sameRegisters _ later s)
  · exact .inl (finish_active ..)

theorem byteStep_idle_or_sameRegisters {s t : State} (h : byteStep s = .next t) :
    t.active = none ∨ s.SameRegisters t := by
  rcases byteStep_eq_step_or_start h with hstep | ⟨cmd, later, -, rfl⟩
  · exact step_idle_or_sameRegisters hstep
  · exact .inr (start_sameRegisters cmd later s)

/-- Settles O5: BUSY is the presence of a transaction, and a state in one has the registers of the state before it. -/
theorem registersHoldTheirValuesWhileBusy : Obligations.RegistersHoldTheirValuesWhileBusy := by
  refine ⟨fun s => busyBit_withBusy _ _, fun s t h hbusy => ?_⟩
  have hcases : t.active = none ∨ s.SameRegisters t := h.elim step_idle_or_sameRegisters byteStep_idle_or_sameRegisters
  have hsame : s.SameRegisters t := hcases.resolve_left (Option.isSome_iff_ne_none.1 hbusy)
  refine ⟨?_, fun a ha => hsame.readReg_of_ne ha⟩
  rw [readReg_status, readReg_status, withBusy_withBusy, hbusy, hsame.status]

end Sys2Proof.Machine
end

section
/-! PROOFS. Family 10_state.md: the transaction as one step and byte by byte (R27, R28, R31, R42). A command fed its bytes one at a
time gives what its meaning gives for all of them, so that its run of byte-level steps ends where its one step does. -/

namespace Sys2Proof.Machine

/-! ### Runs of byte-level steps -/

/-- Some number of byte-level steps leads from `s` to `t`. -/
def Reaches (s t : State) : Prop := ∃ k : Nat, byteRun k s = .next t

theorem Reaches.refl (s : State) : Reaches s s := ⟨0, rfl⟩

theorem Reaches.trans {s u t : State} (hsu : Reaches s u) (hut : Reaches u t) : Reaches s t := by
  obtain ⟨j, hj⟩ := hsu
  obtain ⟨k, hk⟩ := hut
  exact ⟨j + k, (byteRun_add j k s u hj).trans hk⟩

theorem reaches_of_byteStep {s t : State} (h : byteStep s = .next t) : Reaches s t := ⟨1, by simp [byteRun, h]⟩

/-- What every byte-level step keeps, a run of them keeps. -/
theorem Reaches.keeps {P : State → Prop} (hP : ∀ s t, P s → byteStep s = .next t → P t) {s t : State}
    (h : Reaches s t) (hs : P s) : P t := by
  obtain ⟨k, hk⟩ := h
  induction k generalizing s with
  | zero => cases hk; exact hs
  | succ k ih =>
    rw [byteRun_succ] at hk
    split at hk
    next u hu => exact ih (hP s u hs hu) hk
    · cases hk
    · cases hk

theorem byteStep_busy {s : State} {tr : Transaction} (hr : s.resetAsserted = false) (ha : s.active = some tr) :
    byteStep s = tick tr s := by
  simp [byteStep, hr, ha]

theorem byteStep_idle {s : State} {cmd : Word} {later : List Word} (hr : s.resetAsserted = false)
    (ha : s.active = none) (hc : s.commands = cmd :: later) :
    byteStep s = .next (State.start cmd { s with commands := later }) := by
  simp [byteStep, hr, ha, hc]

/-! ### A transaction fed byte by byte -/

/-- The transaction after its pending bytes have been written. -/
def Transaction.drain (tr : Transaction) : Transaction :=
  { tr with pending := [], written := tr.written ++ tr.pending }

/-- The transaction after one more input byte, and the output bytes it gives, have moved. -/
def Transaction.absorb (cfg : Config) (tr : Transaction) (b : Byte) : Transaction := (tr.feed cfg b).drain

@[simp] theorem drain_written (tr : Transaction) : tr.drain.written = tr.written ++ tr.pending := rfl

theorem drain_of_pending_nil {tr : Transaction} (h : tr.pending = []) : tr.drain = tr := by
  cases tr; simp_all [Transaction.drain]

section Feed
variable (cfg : Config) (tr : Transaction) (b : Byte)

theorem feed_of_encode {cmd : Word} {len : BitVec 28} (hword : tr.word = cmd) (hd : decode cmd = .ok (.encode len)) :
    tr.feed cfg b = if len.toNat % 4 ≠ 0 then { tr with pos := tr.pos + 1 } else tr.feedEncode b := by
  simp only [Transaction.feed, hword, hd]

theorem feed_of_decode {cmd : Word} {len : BitVec 28} (hword : tr.word = cmd) (hd : decode cmd = .ok (.decode len)) :
    tr.feed cfg b = if len.toNat % 5 ≠ 0 then { tr with pos := tr.pos + 1 } else tr.feedDecode cfg b := by
  simp only [Transaction.feed, hword, hd]

/-- A byte of an ENCODE moves the position on and writes nothing. -/
theorem feedEncode_frame :
    (tr.feedEncode b).word = tr.word ∧ (tr.feedEncode b).pos = tr.pos + 1 ∧
      (tr.feedEncode b).written = tr.written := by
  unfold Transaction.feedEncode
  split <;> exact ⟨rfl, rfl, rfl⟩

/-- Everything one character of a DECODE can do: be discarded after a failure, fail, complete a chunk, or go into the accumulator. -/
theorem feedDecode_cases :
    (tr.failed.isSome = true ∧ tr.feedDecode cfg b = { tr with pos := tr.pos + 1 }) ∨
    (tr.failed = none ∧ decChar cfg b = none ∧
      tr.feedDecode cfg b = { tr with pos := tr.pos + 1, failed := some (b, tr.pos) }) ∨
    (∃ r, tr.failed = none ∧ decChar cfg b = some r ∧ tr.pos % 5 = 4 ∧
      tr.feedDecode cfg b =
        { tr with pos := tr.pos + 1, acc := 0#32, pending := bytesOfWord (accumulate tr.acc r) }) ∨
    (∃ r, tr.failed = none ∧ decChar cfg b = some r ∧ tr.pos % 5 ≠ 4 ∧
      tr.feedDecode cfg b = { tr with pos := tr.pos + 1, acc := accumulate tr.acc r }) := by
  cases hf : tr.failed with
  | some f => exact .inl ⟨rfl, by simp [Transaction.feedDecode, hf]⟩
  | none =>
    cases hd : decChar cfg b with
    | none => exact .inr (.inl ⟨rfl, rfl, by simp [Transaction.feedDecode, hf, hd]⟩)
    | some r =>
      by_cases h4 : tr.pos % 5 = 4
      · exact .inr (.inr (.inl ⟨r, rfl, rfl, h4, by simp [Transaction.feedDecode, hf, hd, h4]⟩))
      · exact .inr (.inr (.inr ⟨r, rfl, rfl, h4, by simp [Transaction.feedDecode, hf, hd, h4]⟩))

/-- A character of a DECODE moves the position on and writes nothing. -/
theorem feedDecode_frame :
    (tr.feedDecode cfg b).word = tr.word ∧ (tr.feedDecode cfg b).pos = tr.pos + 1 ∧
      (tr.feedDecode cfg b).written = tr.written := by
  rcases feedDecode_cases cfg tr b with ⟨-, h⟩ | ⟨-, -, h⟩ | ⟨_, -, -, -, h⟩ | ⟨_, -, -, -, h⟩ <;>
    rw [h] <;> exact ⟨rfl, rfl, rfl⟩

@[simp] theorem feed_word : (tr.feed cfg b).word = tr.word := by
  unfold Transaction.feed
  split
  · split
    · rfl
    · exact (feedEncode_frame tr b).1
  · split
    · rfl
    · exact (feedDecode_frame cfg tr b).1
  all_goals rfl

@[simp] theorem feed_written : (tr.feed cfg b).written = tr.written := by
  unfold Transaction.feed
  split
  · split
    · rfl
    · exact (feedEncode_frame tr b).2.2
  · split
    · rfl
    · exact (feedDecode_frame cfg tr b).2.2
  all_goals rfl

/-- A byte the command is owed moves the position on (R35); a command that is owed none is no ENCODE and no DECODE. -/
theorem feed_pos (h : tr.pos < inputNeed tr.word) : (tr.feed cfg b).pos = tr.pos + 1 := by
  unfold Transaction.feed
  split
  · split
    · rfl
    · exact (feedEncode_frame tr b).2.1
  · split
    · rfl
    · exact (feedDecode_frame cfg tr b).2.1
  all_goals next hd => simp [inputNeed, hd] at h

end Feed

section AbsorbAll
variable (cfg : Config)

@[simp] theorem absorb_word (tr : Transaction) (b : Byte) : (tr.absorb cfg b).word = tr.word := feed_word cfg tr b

theorem absorb_pos {tr : Transaction} (h : tr.pos < inputNeed tr.word) (b : Byte) :
    (tr.absorb cfg b).pos = tr.pos + 1 :=
  feed_pos cfg tr b h

theorem absorb_written (tr : Transaction) (b : Byte) :
    (tr.absorb cfg b).written = tr.written ++ (tr.feed cfg b).pending := by
  simp [Transaction.absorb]

/-- Bytes absorbed in order. -/
def Transaction.absorbAll (tr : Transaction) (bytes : List Byte) : Transaction :=
  bytes.foldl (Transaction.absorb cfg) tr

@[simp] theorem absorbAll_nil (tr : Transaction) : tr.absorbAll cfg [] = tr := rfl

@[simp] theorem absorbAll_cons (tr : Transaction) (b : Byte) (bs : List Byte) :
    tr.absorbAll cfg (b :: bs) = (tr.absorb cfg b).absorbAll cfg bs := rfl

theorem absorbAll_append (tr : Transaction) (as bs : List Byte) :
    tr.absorbAll cfg (as ++ bs) = (tr.absorbAll cfg as).absorbAll cfg bs :=
  List.foldl_append

@[simp] theorem absorbAll_word (tr : Transaction) (bytes : List Byte) : (tr.absorbAll cfg bytes).word = tr.word := by
  induction bytes generalizing tr with
  | nil => rfl
  | cons b bs ih => simp [ih]

theorem absorbAll_pending {tr : Transaction} (h : tr.pending = []) (bytes : List Byte) :
    (tr.absorbAll cfg bytes).pending = [] := by
  induction bytes generalizing tr with
  | nil => exact h
  | cons b bs ih => exact ih rfl

theorem absorbAll_pos {tr : Transaction} {bytes : List Byte} (h : tr.pos + bytes.length ≤ inputNeed tr.word) :
    (tr.absorbAll cfg bytes).pos = tr.pos + bytes.length := by
  induction bytes generalizing tr with
  | nil => rfl
  | cons b bs ih =>
    rw [List.length_cons] at h ⊢
    have hb : (tr.absorb cfg b).pos = tr.pos + 1 := absorb_pos cfg (by omega) b
    rw [absorbAll_cons, ih (by simp only [hb, absorb_word]; omega), hb]
    omega

/-- What a transaction has written stays written. -/
theorem written_eq_nil_of_absorbAll {tr : Transaction} {bytes : List Byte}
    (h : (tr.absorbAll cfg bytes).written = []) : tr.written = [] := by
  induction bytes generalizing tr with
  | nil => exact h
  | cons b bs ih =>
    have hb : (tr.absorb cfg b).written = [] := ih h
    rw [absorb_written] at hb
    exact (List.append_eq_nil_iff.1 hb).1

end AbsorbAll

/-! ### From the acceptance of a command to its completion -/

/-- The block in transaction `tr`, whose output bytes it has put out since state `s`, with these input bytes still to come. -/
def State.running (s : State) (tr : Transaction) (input : List Byte) : State :=
  { s with input := input, output := s.output ++ tr.written, active := some tr }

theorem start_eq_running (s : State) (cmd : Word) : s.start cmd = s.running (.fresh cmd) s.input := by
  simp [State.start, State.running, Transaction.fresh]

/-- The transaction has put out what completion `c` counts, and completes with `c`. -/
def Transaction.EndsAs (tr : Transaction) (c : Completion) : Prop :=
  c.out = tr.written ∧ ∀ s : State, completeActive tr s = .next (s.retire c)

/-- A completion whose output the transaction has already put out leaves what the one-step command leaves. -/
theorem retire_running {s : State} {tr : Transaction} {n : Nat} {c : Completion} (h : c.out = tr.written) :
    (s.running tr (s.input.drop n)).retire c = s.finish n c := by
  simp [State.finish, State.retire, State.running, h]

theorem tick_of_done {tr : Transaction} (hp : tr.pending = []) (hpos : inputNeed tr.word ≤ tr.pos) (s : State) :
    tick tr s = completeActive tr s := by
  simp [tick, hp, Nat.not_lt.2 hpos]

section Running
variable {s : State} {tr : Transaction} (hr : s.resetAsserted = false)
include hr

theorem byteStep_running (input : List Byte) : byteStep (s.running tr input) = tick tr (s.running tr input) :=
  byteStep_busy (s := s.running tr input) hr rfl

/-- The pending bytes of a chunk go out one by one, where the host takes them. -/
theorem reaches_drain (input : List Byte) (ho : s.outReady = true ∨ tr.pending = []) :
    Reaches (s.running tr input) (s.running tr.drain input) := by
  generalize hp : tr.pending = pending at ho
  induction pending generalizing tr with
  | nil => rw [drain_of_pending_nil hp]; exact .refl _
  | cons b bs ih =>
    have hready : s.outReady = true := by simpa using ho
    have hstep : byteStep (s.running tr input) =
        .next (s.running { tr with pending := bs, written := tr.written ++ [b] } input) := by
      rw [byteStep_running hr]
      simp [tick, hp, State.running, hready]
    have hdrain : tr.drain = Transaction.drain { tr with pending := bs, written := tr.written ++ [b] } := by
      simp [Transaction.drain, hp]
    rw [hdrain]
    exact (reaches_of_byteStep hstep).trans (ih rfl (.inl hready))

/-- A byte that is there moves in, and the chunk it completes moves out. -/
theorem reaches_absorb {b : Byte} {rest : List Byte} (hp : tr.pending = []) (hpos : tr.pos < inputNeed tr.word)
    (ho : s.outReady = true ∨ (tr.absorb s.cfg b).written = []) :
    Reaches (s.running tr (b :: rest)) (s.running (tr.absorb s.cfg b) rest) := by
  have hstep : byteStep (s.running tr (b :: rest)) = .next (s.running (tr.feed s.cfg b) rest) := by
    rw [byteStep_running hr]
    simp [tick, hp, hpos, State.running]
  refine (reaches_of_byteStep hstep).trans (reaches_drain hr rest (ho.imp_right fun h => ?_))
  rw [absorb_written] at h
  exact (List.append_eq_nil_iff.1 h).2

/-- All the bytes a command is owed move in, and what they give moves out. -/
theorem reaches_absorbAll {bytes rest : List Byte} (hp : tr.pending = [])
    (hpos : tr.pos + bytes.length ≤ inputNeed tr.word)
    (ho : s.outReady = true ∨ (tr.absorbAll s.cfg bytes).written = []) :
    Reaches (s.running tr (bytes ++ rest)) (s.running (tr.absorbAll s.cfg bytes) rest) := by
  induction bytes generalizing tr with
  | nil => exact .refl _
  | cons b bs ih =>
    rw [List.length_cons] at hpos
    have hlt : tr.pos < inputNeed tr.word := by omega
    have hfirst : s.outReady = true ∨ (tr.absorb s.cfg b).written = [] :=
      ho.imp_right fun h => written_eq_nil_of_absorbAll s.cfg h
    refine (reaches_absorb hr hp hlt hfirst).trans (ih rfl ?_ ho)
    rw [absorb_word, absorb_pos s.cfg hlt]
    omega

/-- A command in progress whose bytes give, one by one, what `run` gives for them all reaches its one-step end. -/
theorem reaches_finish {cmd : Word} {run : List Byte → Completion} (hn : inputNeed cmd ≤ s.input.length)
    (ho : s.outReady = true ∨ (run (s.input.take (inputNeed cmd))).out = [])
    (hrun : ((Transaction.fresh cmd).absorbAll s.cfg (s.input.take (inputNeed cmd))).EndsAs
      (run (s.input.take (inputNeed cmd)))) :
    Reaches (s.start cmd) (s.finish (inputNeed cmd) (run (s.input.take (inputNeed cmd)))) := by
  set n := inputNeed cmd
  set tr := (Transaction.fresh cmd).absorbAll s.cfg (s.input.take n)
  obtain ⟨hout, hend⟩ := hrun
  have hlen : (Transaction.fresh cmd).pos + (s.input.take n).length = n := by simpa [Transaction.fresh] using hn
  have hmoves : Reaches (s.start cmd) (s.running tr (s.input.drop n)) := by
    have h := reaches_absorbAll (rest := s.input.drop n) hr rfl hlen.le (ho.imp_right fun h => hout ▸ h)
    rwa [List.take_append_drop, ← start_eq_running] at h
  have hpos : tr.pos = n := (absorbAll_pos s.cfg hlen.le).trans hlen
  have hpending : tr.pending = [] := absorbAll_pending s.cfg rfl _
  have hword : tr.word = cmd := absorbAll_word s.cfg _ _
  have hdone : byteStep (s.running tr (s.input.drop n)) = .next (s.finish n (run (s.input.take n))) := by
    rw [byteStep_running hr, tick_of_done hpending (by rw [hword, hpos]), hend, retire_running hout]
  exact hmoves.trans (reaches_of_byteStep hdone)

end Running

/-! ### What the bytes of a whole command give -/

/-- Every further byte is discarded: only the position moves on. -/
def Transaction.Discards (cfg : Config) (tr : Transaction) : Prop :=
  ∀ (b : Byte) (p : Nat), Transaction.feed cfg b { tr with pos := p } = { tr with pos := p + 1 }

theorem absorbAll_of_discards {cfg : Config} {tr : Transaction} (h : tr.Discards cfg) (hp : tr.pending = [])
    (bytes : List Byte) : tr.absorbAll cfg bytes = { tr with pos := tr.pos + bytes.length } := by
  induction bytes generalizing tr with
  | nil => rfl
  | cons b bs ih =>
    have hb : tr.absorb cfg b = { tr with pos := tr.pos + 1 } :=
      (congrArg Transaction.drain (h b tr.pos)).trans (drain_of_pending_nil hp)
    rw [absorbAll_cons, hb, ih (tr := { tr with pos := tr.pos + 1 }) (fun c p => h c p) hp]
    simp [Nat.add_assoc, Nat.add_comm 1]

/-- A transaction with nothing pending and no failure: `p` bytes in, the bytes `out` written, and `acc` of the current chunk. -/
def Transaction.collecting (cmd : Word) (p : Nat) (out : List Byte) (acc : Word) : Transaction :=
  { word := cmd, pos := p, written := out, acc := acc, pending := [], failed := none }

/-- Four bytes shifted in push out what was there before (R38). -/
theorem shiftInByte_four (acc : Word) (b0 b1 b2 b3 : Byte) :
    shiftInByte (shiftInByte (shiftInByte (shiftInByte acc b0) b1) b2) b3 = wordOfBytes b0 b1 b2 b3 := by
  refine BitVec.eq_of_getLsbD_eq fun i hi => ?_
  simp only [shiftInByte, wordOfBytes, BitVec.getLsbD_append, BitVec.getLsbD_extractLsb']
  grind

section EncodeRun
variable {cfg : Config} {cmd : Word} {len : BitVec 28} (hd : decode cmd = .ok (.encode len))
include hd

theorem discards_of_encode_length (hlen : len.toNat % 4 ≠ 0) : (Transaction.fresh cmd).Discards cfg :=
  fun b p => (feed_of_encode cfg { Transaction.fresh cmd with pos := p } b rfl hd).trans (if_pos hlen)

theorem completeActive_of_encode {tr : Transaction} (hword : tr.word = cmd) (s : State) :
    completeActive tr s =
      .next (s.retire (if len.toNat % 4 ≠ 0 then lengthError 4#4 0x1#4 len else .success 0x1#4 0#32 tr.written)) := by
  simp only [completeActive, hword, hd]

/-- One byte of an ENCODE, with the characters it completes (R70, R74). -/
theorem absorb_encode (hlen : len.toNat % 4 = 0) (p : Nat) (out : List Byte) (acc : Word) (b : Byte) :
    (Transaction.collecting cmd p out acc).absorb cfg b =
      if p % 4 = 3 then .collecting cmd (p + 1) (out ++ encWord (shiftInByte acc b)) 0#32
      else .collecting cmd (p + 1) out (shiftInByte acc b) := by
  rw [Transaction.absorb, feed_of_encode cfg (.collecting cmd p out acc) b rfl hd, if_neg (not_not.2 hlen)]
  by_cases h3 : p % 4 = 3 <;> simp [Transaction.collecting, Transaction.feedEncode, Transaction.drain, h3]

theorem absorbAll_encode_chunk (hlen : len.toNat % 4 = 0) {p : Nat} (hp : p % 4 = 0) (out : List Byte) (acc : Word)
    (b0 b1 b2 b3 : Byte) :
    (Transaction.collecting cmd p out acc).absorbAll cfg [b0, b1, b2, b3] =
      .collecting cmd (p + 4) (out ++ encChunk b0 b1 b2 b3) 0#32 := by
  have h0 : ¬ p % 4 = 3 := by omega
  have h1 : ¬ (p + 1) % 4 = 3 := by omega
  have h2 : ¬ (p + 1 + 1) % 4 = 3 := by omega
  have h3 : (p + 1 + 1 + 1) % 4 = 3 := by omega
  simp only [absorbAll_cons, absorbAll_nil, absorb_encode hd hlen, h0, h1, h2, h3, if_true, if_false, shiftInByte_four,
    encChunk]

theorem absorbAll_encode (hlen : len.toNat % 4 = 0) (p : Nat) (out bytes : List Byte) (hp : p % 4 = 0)
    (hbytes : bytes.length % 4 = 0) :
    (Transaction.collecting cmd p out 0#32).absorbAll cfg bytes =
      .collecting cmd (p + bytes.length) (out ++ encodeBytes bytes) 0#32 := by
  induction bytes using encodeBytes.induct generalizing p out with
  | case1 b0 b1 b2 b3 rest ih =>
    simp only [List.length_cons] at hbytes
    rw [show b0 :: b1 :: b2 :: b3 :: rest = [b0, b1, b2, b3] ++ rest from rfl, absorbAll_append,
      absorbAll_encode_chunk hd hlen hp, ih _ _ (by omega) (by omega)]
    simp [encodeBytes, Nat.add_assoc, Nat.add_comm 4]
  | case2 bytes hshort =>
    have hnil : bytes = [] := by
      match bytes, hshort, hbytes with
      | [], _, _ => rfl
      | b0 :: b1 :: b2 :: b3 :: rest, h, _ => exact absurd rfl (h b0 b1 b2 b3 rest)
    subst hnil
    simp [encodeBytes]

theorem encode_endsAs {bytes : List Byte} (hbytes : bytes.length = len.toNat) :
    ((Transaction.fresh cmd).absorbAll cfg bytes).EndsAs (encodeCompletion len bytes) := by
  by_cases hlen : len.toNat % 4 = 0
  · have hrun : (Transaction.fresh cmd).absorbAll cfg bytes = _ :=
      absorbAll_encode hd hlen 0 [] bytes rfl (hbytes ▸ hlen)
    rw [hrun]
    refine ⟨by simp [encodeCompletion, hlen, Transaction.collecting], fun s => ?_⟩
    rw [completeActive_of_encode hd rfl]
    simp [encodeCompletion, hlen, Transaction.collecting]
  · rw [absorbAll_of_discards (discards_of_encode_length hd hlen) rfl]
    refine ⟨by simp [encodeCompletion, hlen, Transaction.fresh], fun s => ?_⟩
    rw [completeActive_of_encode hd rfl]
    simp [encodeCompletion, hlen]

end EncodeRun

section DecodeRun
variable {cfg : Config} {cmd : Word} {len : BitVec 28} (hd : decode cmd = .ok (.decode len))
include hd

theorem discards_of_decode_length (hlen : len.toNat % 5 ≠ 0) : (Transaction.fresh cmd).Discards cfg :=
  fun b p => (feed_of_decode cfg { Transaction.fresh cmd with pos := p } b rfl hd).trans (if_pos hlen)

theorem completeActive_of_decode {tr : Transaction} (hword : tr.word = cmd) (s : State) :
    completeActive tr s =
      .next (s.retire (if len.toNat % 5 ≠ 0 then lengthError 5#4 0x2#4 len else decodeEnd tr.written tr.failed)) := by
  simp only [completeActive, hword, hd]

/-- After an INVALID character the rest is discarded (R87). -/
theorem discards_of_failed (hlen : len.toNat % 5 = 0) {tr : Transaction} (hword : tr.word = cmd)
    (hfailed : tr.failed.isSome = true) : tr.Discards cfg := by
  intro b p
  rw [feed_of_decode cfg { tr with pos := p } b hword hd, if_neg (not_not.2 hlen), Transaction.feedDecode, if_pos hfailed]

/-- One valid character of a DECODE, with the bytes it completes (R80, R85). -/
theorem absorb_decode (hlen : len.toNat % 5 = 0) (p : Nat) (out : List Byte) (acc : Word) {c r : Byte}
    (hc : decChar cfg c = some r) :
    (Transaction.collecting cmd p out acc).absorb cfg c =
      if p % 5 = 4 then .collecting cmd (p + 1) (out ++ bytesOfWord (accumulate acc r)) 0#32
      else .collecting cmd (p + 1) out (accumulate acc r) := by
  rw [Transaction.absorb, feed_of_decode cfg (.collecting cmd p out acc) c rfl hd, if_neg (not_not.2 hlen)]
  by_cases h4 : p % 5 = 4 <;> simp [Transaction.collecting, Transaction.feedDecode, Transaction.drain, hc, h4]

/-- The first INVALID character of a DECODE is kept with its position, and nothing more is written (R83, R87). -/
theorem absorbAll_decode_invalid (hlen : len.toNat % 5 = 0) (p : Nat) (out : List Byte) (acc : Word) {c : Byte}
    (hc : decChar cfg c = none) (rest : List Byte) :
    ((Transaction.collecting cmd p out acc).absorbAll cfg (c :: rest)).written = out ∧
      ((Transaction.collecting cmd p out acc).absorbAll cfg (c :: rest)).failed = some (c, p) := by
  have hfirst : (Transaction.collecting cmd p out acc).absorb cfg c =
      { Transaction.collecting cmd (p + 1) out acc with failed := some (c, p) } := by
    rw [Transaction.absorb, feed_of_decode cfg (.collecting cmd p out acc) c rfl hd, if_neg (not_not.2 hlen)]
    simp [Transaction.collecting, Transaction.feedDecode, hc, Transaction.drain]
  rw [absorbAll_cons, hfirst, absorbAll_of_discards (discards_of_failed hd hlen rfl rfl) rfl]
  exact ⟨rfl, rfl⟩

/-- The rest `cs` of a chunk, from its position `k` on, where none of it is INVALID. -/
theorem absorbAll_chunk_word (hlen : len.toNat % 5 = 0) {q : Nat} (hq : q % 5 = 0) (out : List Byte) {cs : List Byte}
    {k : Nat} {acc w : Word} (hk : k + cs.length = 5) (hlt : k < 5) (hw : decChunkFrom cfg k acc cs = .word w) :
    (Transaction.collecting cmd (q + k) out acc).absorbAll cfg cs =
      .collecting cmd (q + 5) (out ++ bytesOfWord w) 0#32 := by
  induction cs generalizing k acc with
  | nil => simp at hk; omega
  | cons c cs ih =>
    rw [List.length_cons] at hk
    rw [decChunkFrom] at hw
    split at hw
    · cases hw
    next r hc =>
      rw [absorbAll_cons, absorb_decode hd hlen _ _ _ hc]
      by_cases h4 : k = 4
      · obtain rfl : cs = [] := List.eq_nil_of_length_eq_zero (by omega)
        cases hw
        rw [if_pos (by omega), h4, absorbAll_nil]
      · rw [if_neg (by omega)]
        exact ih (by omega) (by omega) hw

/-- The rest `cs` of a chunk, from its position `k` on, where some of it is INVALID. -/
theorem absorbAll_chunk_bad (hlen : len.toNat % 5 = 0) {q : Nat} (hq : q % 5 = 0) (out rest : List Byte)
    {cs : List Byte} {k p : Nat} {acc : Word} {b : Byte} (hk : k + cs.length = 5)
    (hb : decChunkFrom cfg k acc cs = .bad b p) :
    ((Transaction.collecting cmd (q + k) out acc).absorbAll cfg (cs ++ rest)).written = out ∧
      ((Transaction.collecting cmd (q + k) out acc).absorbAll cfg (cs ++ rest)).failed = some (b, q + p) := by
  induction cs generalizing k acc with
  | nil => cases hb
  | cons c cs ih =>
    rw [List.length_cons] at hk
    rw [decChunkFrom] at hb
    split at hb
    next hc => cases hb; exact absorbAll_decode_invalid hd hlen _ _ _ hc _
    next r hc =>
      have h4 : ¬ (q + k) % 5 = 4 := by
        intro h4
        obtain rfl : cs = [] := List.eq_nil_of_length_eq_zero (by omega)
        cases hb
      rw [List.cons_append, absorbAll_cons, absorb_decode hd hlen _ _ _ hc, if_neg h4]
      exact ih (by omega) hb

theorem absorbAll_decode (hlen : len.toNat % 5 = 0) (p : Nat) (out chars : List Byte) (hp : p % 5 = 0)
    (hchars : chars.length % 5 = 0) :
    ((Transaction.collecting cmd p out 0#32).absorbAll cfg chars).written = out ++ (decodeBytes cfg p chars).out ∧
      ((Transaction.collecting cmd p out 0#32).absorbAll cfg chars).failed = (decodeBytes cfg p chars).bad := by
  induction p, chars using decodeBytes.induct (cfg := cfg) generalizing out with
  | case1 p c0 c1 c2 c3 c4 rest b r hb =>
    have h := absorbAll_chunk_bad hd hlen hp out rest (k := 0) rfl hb
    simpa [decodeBytes, hb] using h
  | case2 p c0 c1 c2 c3 c4 rest w hw ih =>
    simp only [List.length_cons] at hchars
    have hchunk : (Transaction.collecting cmd p out 0#32).absorbAll cfg [c0, c1, c2, c3, c4] = _ :=
      absorbAll_chunk_word hd hlen hp out (k := 0) rfl (by decide) hw
    rw [show c0 :: c1 :: c2 :: c3 :: c4 :: rest = [c0, c1, c2, c3, c4] ++ rest from rfl, absorbAll_append, hchunk]
    simpa [decodeBytes, hw] using ih (out ++ bytesOfWord w) (by omega) (by omega)
  | case3 chars p hshort =>
    have hnil : chars = [] := by
      match chars, hshort, hchars with
      | [], _, _ => rfl
      | c0 :: c1 :: c2 :: c3 :: c4 :: rest, h, _ => exact absurd rfl (h c0 c1 c2 c3 c4 rest)
    subst hnil
    exact ⟨(List.append_nil out).symm, rfl⟩

theorem decode_endsAs {chars : List Byte} (hchars : chars.length = len.toNat) :
    ((Transaction.fresh cmd).absorbAll cfg chars).EndsAs (decodeCompletion cfg len chars) := by
  by_cases hlen : len.toNat % 5 = 0
  · obtain ⟨hwritten, hfailed⟩ := absorbAll_decode (cfg := cfg) hd hlen 0 [] chars rfl (hchars ▸ hlen)
    change ((Transaction.fresh cmd).absorbAll cfg chars).written = _ at hwritten
    change ((Transaction.fresh cmd).absorbAll cfg chars).failed = _ at hfailed
    refine ⟨by simp [decodeCompletion, hlen, hwritten], fun s => ?_⟩
    rw [completeActive_of_decode hd (absorbAll_word _ _ _)]
    simp [decodeCompletion, hlen, hwritten, hfailed]
  · rw [absorbAll_of_discards (discards_of_decode_length hd hlen) rfl]
    refine ⟨by simp [decodeCompletion, hlen, Transaction.fresh], fun s => ?_⟩
    rw [completeActive_of_decode hd rfl]
    simp [decodeCompletion, hlen]

end DecodeRun

/-! ### The one-step command as a run of byte-level steps -/

/-- A word that decodes to an ENCODE or to a DECODE is that command's word (R47). -/
theorem encode_of_decode_stream {cmd : Word} {len : BitVec 28} :
    (decode cmd = .ok (.encode len) → encode (.encode len) = cmd) ∧
      (decode cmd = .ok (.decode len) → encode (.decode len) = cmd) := by
  have hword : ∀ op : BitVec 4, opField cmd = op → op ++ argField cmd = cmd :=
    fun op hop => hop ▸ opField_append_argField cmd
  simp only [decode, decodeAlpha, decodeRev]
  constructor <;> intro h <;> split_ifs at h with hop <;> cases h
  · exact hword 0x1#4 hop
  · exact hword 0x2#4 ‹_›

section Accepted
variable {s t : State} {cmd : Word} (hr : s.resetAsserted = false)
include hr

/-- A command that owes no input completes in the move after its acceptance. -/
theorem reaches_of_inputless (hneed : inputNeed cmd = 0)
    (h : completeActive (.fresh cmd) (s.start cmd) = .next t) : Reaches (s.start cmd) t := by
  refine reaches_of_byteStep ?_
  rw [byteStep_busy (s := s.start cmd) hr rfl, tick_of_done (tr := .fresh cmd) rfl hneed.le, h]

/-- A streaming command reaches what its single step gives, which waits at its acceptance or completes. -/
theorem reaches_transact {run : List Byte → Completion}
    (hrun : ∀ bytes : List Byte, bytes.length = inputNeed cmd →
      ((Transaction.fresh cmd).absorbAll s.cfg bytes).EndsAs (run bytes))
    (h : transact cmd (inputNeed cmd) run s = .next t) : Reaches (s.start cmd) t := by
  rcases transact_cases h with ⟨hn, ho, rfl⟩ | ⟨-, rfl⟩
  · exact reaches_finish hr hn ho (hrun _ (by simpa using hn))
  · exact .refl _

theorem reaches_runCommand (h : runCommand cmd s = .next t) : Reaches (s.start cmd) t := by
  unfold runCommand at h
  split at h
  next i hd =>
    cases i with
    | encode len =>
      have hneed : inputNeed cmd = len.toNat := by simp [inputNeed, hd]
      refine reaches_transact hr (run := encodeCompletion len) (fun _ hb => encode_endsAs hd (hb.trans hneed)) ?_
      rwa [hneed, ← encode_of_decode_stream.1 hd]
    | decode len =>
      have hneed : inputNeed cmd = len.toNat := by simp [inputNeed, hd]
      refine reaches_transact hr (run := decodeCompletion s.cfg len)
        (fun _ hb => decode_endsAs hd (hb.trans hneed)) ?_
      rwa [hneed, ← encode_of_decode_stream.2 hd]
    | alphaLookup idx =>
      refine reaches_of_inputless hr (by simp [inputNeed, hd]) ?_
      simp only [completeActive, Transaction.fresh, hd]
      exact h
    | revLookup byte =>
      refine reaches_of_inputless hr (by simp [inputNeed, hd]) ?_
      simp only [completeActive, Transaction.fresh, hd]
      exact h
  next r hd =>
    refine reaches_of_inputless hr (by simp [inputNeed, hd]) ?_
    simp only [completeActive, Transaction.fresh, hd]
    exact h

end Accepted

/-- Settles O43: the acceptance is one byte-level step, and from it a command reaches what its own step gives. -/
theorem byteStepsReachTheTransactionStep : Obligations.ByteStepsReachTheTransactionStep := by
  intro s t cmd later hr ha hc h
  rw [step_idle hr ha hc] at h
  exact (reaches_of_byteStep (byteStep_idle hr ha hc)).trans
    (reaches_runCommand (s := { s with commands := later }) hr h)

end Sys2Proof.Machine
end

section
/-! PROOFS. Family 10_state.md: the invariant of the block (R18, R20 to R22, R24, R37, R99) at reset and through every step. A byte-level
step keeps it, and a step is a run of byte-level steps. -/

namespace Sys2Proof.Machine

/-! ### The output bytes a transaction owes its input -/

/-- The output bytes that the first `pos` input bytes of a command give, as long as none of them is INVALID (R37). -/
def outputDue (cmd : Word) (pos : Nat) : Nat :=
  match decode cmd with
  | .ok (.encode len) => if len.toNat % 4 = 0 then 5 * (pos / 4) else 0
  | .ok (.decode len) => if len.toNat % 5 = 0 then 4 * (pos / 5) else 0
  | .ok (.alphaLookup _) => 0
  | .ok (.revLookup _) => 0
  | .error _ => 0

section OutputDue
variable {cmd : Word} {len : BitVec 28}

theorem outputDue_of_encode (hd : decode cmd = .ok (.encode len)) (pos : Nat) :
    outputDue cmd pos = if len.toNat % 4 = 0 then 5 * (pos / 4) else 0 := by
  simp only [outputDue, hd]

theorem outputDue_of_decode (hd : decode cmd = .ok (.decode len)) (pos : Nat) :
    outputDue cmd pos = if len.toNat % 5 = 0 then 4 * (pos / 5) else 0 := by
  simp only [outputDue, hd]

theorem inputNeed_of_encode (hd : decode cmd = .ok (.encode len)) : inputNeed cmd = len.toNat := by
  simp only [inputNeed, hd]

theorem inputNeed_of_decode (hd : decode cmd = .ok (.decode len)) : inputNeed cmd = len.toNat := by
  simp only [inputNeed, hd]

/-- A command that is owed input is an ENCODE or a DECODE (R36). -/
theorem stream_of_inputNeed_pos (h : 0 < inputNeed cmd) :
    (∃ len, decode cmd = .ok (.encode len)) ∨ ∃ len, decode cmd = .ok (.decode len) := by
  rcases hd : decode cmd with _ | i
  · simp [inputNeed, hd] at h
  · cases i with
    | encode len => exact .inl ⟨len, rfl⟩
    | decode len => exact .inr ⟨len, rfl⟩
    | alphaLookup idx => simp [inputNeed, hd] at h
    | revLookup byte => simp [inputNeed, hd] at h

theorem outputDue_zero (cmd : Word) : outputDue cmd 0 = 0 := by
  unfold outputDue
  split <;> simp

/-- The largest output is the one of the longest ENCODE (R21). -/
theorem outputDue_le {pos : Nat} (h : pos ≤ inputNeed cmd) : outputDue cmd pos ≤ 335544315 := by
  by_cases h0 : inputNeed cmd = 0
  · have hpos : pos = 0 := by omega
    rw [hpos, outputDue_zero]; decide
  · rcases stream_of_inputNeed_pos (Nat.pos_of_ne_zero h0) with ⟨len, hd⟩ | ⟨len, hd⟩
    · have hlen : pos ≤ len.toNat := inputNeed_of_encode hd ▸ h
      rw [outputDue_of_encode hd]
      split <;> omega
    · have hlen : pos ≤ len.toNat := inputNeed_of_decode hd ▸ h
      rw [outputDue_of_decode hd]
      split <;> omega

end OutputDue

theorem encWord_length (w : Word) : (encWord w).length = 5 := rfl

theorem bytesOfWord_length (w : Word) : (bytesOfWord w).length = 4 := rfl

/-! ### Every byte move keeps the positions of a transaction in agreement -/

section CoherentTransaction
variable {tr : Transaction}

theorem coherent_iff_of_not_failed (hf : tr.failed = none) :
    tr.Coherent ↔ tr.pos ≤ inputNeed tr.word ∧
      tr.written.length + tr.pending.length = outputDue tr.word tr.pos := by
  unfold Transaction.Coherent outputDue
  refine and_congr_right fun _ => ?_
  rcases hd : decode tr.word with r | i
  · simp [hf]
  · cases i with
    | decode len => by_cases h5 : len.toNat % 5 = 0 <;> simp [hf, h5]
    | encode | alphaLookup | revLookup => simp [hf]

/-- Only a DECODE of a right length fails, and then nothing is pending any more (R87). -/
theorem coherent_iff_of_failed {c : Byte} {p : Nat} (hf : tr.failed = some (c, p)) :
    tr.Coherent ↔ tr.pos ≤ inputNeed tr.word ∧ (∃ len, decode tr.word = .ok (.decode len) ∧ len.toNat % 5 = 0) ∧
      p < tr.pos ∧ tr.pending = [] ∧ tr.written.length = outputDue tr.word p := by
  unfold Transaction.Coherent outputDue
  refine and_congr_right fun _ => ?_
  rcases hd : decode tr.word with r | i
  · simp [hf]
  · cases i with
    | decode len => by_cases h5 : len.toNat % 5 = 0 <;> simp [hf, h5]
    | encode | alphaLookup | revLookup => simp [hf]

theorem fresh_coherent (cmd : Word) : (Transaction.fresh cmd).Coherent :=
  (coherent_iff_of_not_failed rfl).2 ⟨Nat.zero_le _, (outputDue_zero cmd).symm⟩

/-- OUT_COUNT is within its bound (R21). -/
theorem Transaction.Coherent.written_le (h : tr.Coherent) : tr.written.length ≤ 335544315 := by
  rcases hf : tr.failed with _ | ⟨c, p⟩
  · obtain ⟨hpos, hsum⟩ := (coherent_iff_of_not_failed hf).1 h
    exact (Nat.le_add_right _ _).trans (hsum.trans_le (outputDue_le hpos))
  · obtain ⟨hpos, -, hp, -, hwritten⟩ := (coherent_iff_of_failed hf).1 h
    exact hwritten.trans_le (outputDue_le (hp.le.trans hpos))

/-- Writing a pending byte moves it from the one count to the other. -/
theorem Transaction.Coherent.write (h : tr.Coherent) {b : Byte} {bs : List Byte} (hp : tr.pending = b :: bs) :
    ({ tr with pending := bs, written := tr.written ++ [b] } : Transaction).Coherent := by
  rcases hf : tr.failed with _ | ⟨c, p⟩
  · obtain ⟨hpos, hsum⟩ := (coherent_iff_of_not_failed hf).1 h
    refine (coherent_iff_of_not_failed rfl).2 ⟨hpos, ?_⟩
    rw [hp, List.length_cons] at hsum
    simp only [List.length_append, List.length_cons, List.length_nil]
    omega
  · obtain ⟨-, -, -, hnil, -⟩ := (coherent_iff_of_failed hf).1 h
    simp [hp] at hnil

/-- A transaction of another command than a DECODE of a right length has not failed. -/
theorem Transaction.Coherent.not_failed (h : tr.Coherent)
    (hd : ∀ len, decode tr.word = .ok (.decode len) → len.toNat % 5 ≠ 0) : tr.failed = none := by
  rcases hf : tr.failed with _ | ⟨c, p⟩
  · rfl
  · obtain ⟨-, ⟨len, hdec, h5⟩, -⟩ := (coherent_iff_of_failed hf).1 h
    exact absurd h5 (hd len hdec)

section Feed
variable {cfg : Config} {len : BitVec 28} (h : tr.Coherent) (hp : tr.pending = []) (hlt : tr.pos < inputNeed tr.word)
include h hp hlt

/-- A byte moved in keeps the counts in agreement when what it makes pending is what it makes due. -/
theorem coherent_after_feed {u : Transaction} (hf : tr.failed = none) (hword : u.word = tr.word)
    (hpos : u.pos = tr.pos + 1) (hwritten : u.written = tr.written) (hfailed : u.failed = none)
    (hdue : outputDue tr.word (tr.pos + 1) = outputDue tr.word tr.pos + u.pending.length) : u.Coherent := by
  obtain ⟨-, hsum⟩ := (coherent_iff_of_not_failed hf).1 h
  rw [hp, List.length_nil] at hsum
  refine (coherent_iff_of_not_failed hfailed).2 ⟨?_, ?_⟩
  · rw [hpos, hword]; exact hlt
  · rw [hpos, hword, hwritten, hdue, ← hsum]; rfl

theorem feed_coherent_of_encode (hd : decode tr.word = .ok (.encode len)) (b : Byte) : (tr.feed cfg b).Coherent := by
  have hf : tr.failed = none := h.not_failed (fun len' hd' => by simp [hd] at hd')
  rw [feed_of_encode cfg tr b rfl hd]
  split
  next h4 =>
    refine coherent_after_feed h hp hlt hf rfl rfl rfl hf ?_
    simp [outputDue_of_encode hd, h4, hp]
  next h4 =>
    have hdue : ∀ pos, outputDue tr.word pos = 5 * (pos / 4) :=
      fun pos => by rw [outputDue_of_encode hd, if_pos (not_not.1 h4)]
    unfold Transaction.feedEncode
    split
    next h3 =>
      refine coherent_after_feed h hp hlt hf rfl rfl rfl hf ?_
      rw [hdue, hdue, encWord_length]
      omega
    next h3 =>
      refine coherent_after_feed h hp hlt hf rfl rfl rfl hf ?_
      rw [hdue, hdue, hp, List.length_nil]
      omega

theorem feed_coherent_of_decode (hd : decode tr.word = .ok (.decode len)) (b : Byte) : (tr.feed cfg b).Coherent := by
  rw [feed_of_decode cfg tr b rfl hd]
  split
  next h5 =>
    have hf : tr.failed = none := h.not_failed (fun len' hd' => by cases hd.symm.trans hd'; exact h5)
    refine coherent_after_feed h hp hlt hf rfl rfl rfl hf ?_
    simp [outputDue_of_decode hd, h5, hp]
  next h5 =>
    rw [not_not] at h5
    have hdue : ∀ pos, outputDue tr.word pos = 4 * (pos / 5) := fun pos => by rw [outputDue_of_decode hd, if_pos h5]
    rcases feedDecode_cases cfg tr b with ⟨hf, hu⟩ | ⟨hf, -, hu⟩ | ⟨r, hf, -, h4, hu⟩ | ⟨r, hf, -, h4, hu⟩ <;> rw [hu]
    · obtain ⟨⟨c, p⟩, hf⟩ := Option.isSome_iff_exists.1 hf
      obtain ⟨-, hright, hpos, -, hwritten⟩ := (coherent_iff_of_failed hf).1 h
      exact (coherent_iff_of_failed (tr := { tr with pos := tr.pos + 1 }) hf).2
        ⟨hlt, hright, Nat.lt_succ_of_lt hpos, hp, hwritten⟩
    · obtain ⟨-, hsum⟩ := (coherent_iff_of_not_failed hf).1 h
      rw [hp] at hsum
      exact (coherent_iff_of_failed rfl).2 ⟨hlt, ⟨len, hd, h5⟩, Nat.lt_succ_self _, hp, hsum⟩
    · refine coherent_after_feed h hp hlt hf rfl rfl rfl hf ?_
      rw [hdue, hdue, bytesOfWord_length]
      omega
    · refine coherent_after_feed h hp hlt hf rfl rfl rfl hf ?_
      rw [hdue, hdue, hp, List.length_nil]
      omega

theorem feed_coherent (b : Byte) : (tr.feed cfg b).Coherent := by
  rcases stream_of_inputNeed_pos (Nat.zero_lt_of_lt hlt) with ⟨len, hd⟩ | ⟨len, hd⟩
  · exact feed_coherent_of_encode h hp hlt hd b
  · exact feed_coherent_of_decode h hp hlt hd b

end Feed

end CoherentTransaction

/-! ### Every completion leaves registers that describe one command -/

theorem State.RegistersCoherent.of_sameRegisters {s t : State} (hs : s.RegistersCoherent) (h : s.SameRegisters t) :
    t.RegistersCoherent := by
  obtain ⟨-, hstatus, hinfo, hcount, hresult⟩ := h
  constructor <;> simp only [hstatus, hinfo, hcount, hresult]
  exacts [hs.reserved_low, hs.reserved_high, hs.errByte_only_invalid, hs.errMult_only_length, hs.length_mult,
    hs.invalid_is_decode, hs.bad_word, hs.ok_info, hs.no_output, hs.error_result, hs.result_width, hs.count_bound]

theorem lowBits_mkSTATUS (kind : BitVec 2) (byte : Byte) (mult op : BitVec 4) :
    (mkSTATUS kind byte mult op).extractLsb' 2 6 = 0#6 := by
  refine BitVec.eq_of_getLsbD_eq fun i hi => ?_
  simp only [mkSTATUS, BitVec.getLsbD_extractLsb', BitVec.getLsbD_append]
  grind

theorem countWord_le (out : List Byte) : (countWord out).toNat ≤ out.length := by
  rw [countWord, BitVec.toNat_ofNat]
  exact Nat.mod_le _ _

section Retire
variable (s : State)

theorem retire_success_coherent (op : BitVec 4) {result : Word} {out : List Byte} (hresult : result.toNat < 1024)
    (hout : out.length ≤ 335544315) : (s.retire (.success op result out)).RegistersCoherent where
  reserved_low := lowBits_mkSTATUS ..
  reserved_high := reservedHigh_mkSTATUS ..
  errByte_only_invalid _ := errByte_mkSTATUS ..
  errMult_only_length _ := errMult_mkSTATUS ..
  length_mult h := by simp [kindOk, kindLength] at h
  invalid_is_decode h := by simp [kindOk, kindInvalidChar] at h
  bad_word h := by simp [kindOk, kindBadCommand] at h
  ok_info _ := rfl
  no_output h := by simp [kindOk, kindLength, kindBadCommand] at h
  error_result h := by simp at h
  result_width := hresult
  count_bound := (countWord_le out).trans hout

/-- An error leaves coherent registers when its diagnostics are those of its kind (R99). -/
theorem retire_raise_coherent {kind : BitVec 2} {byte : Byte} {mult op : BitVec 4} {info : Word} {out : List Byte}
    {outcome : CmdOutcome} (hkind : kind ≠ kindOk) (hbyte : kind ≠ kindInvalidChar → byte = 0#8)
    (hmult : kind ≠ kindLength → mult = 0#4)
    (hlength : kind = kindLength → (op = 0x1#4 ∧ mult = 4#4) ∨ (op = 0x2#4 ∧ mult = 5#4))
    (hinvalid : kind = kindInvalidChar → op = 0x2#4) (hbad : kind = kindBadCommand → opField info = op)
    (hnone : kind = kindLength ∨ kind = kindBadCommand → out = []) (hout : out.length ≤ 335544315) :
    (s.retire (.raise kind byte mult op info out outcome)).RegistersCoherent where
  reserved_low := lowBits_mkSTATUS ..
  reserved_high := reservedHigh_mkSTATUS ..
  errByte_only_invalid := by simpa using hbyte
  errMult_only_length := by simpa using hmult
  length_mult := by simpa using hlength
  invalid_is_decode := by simpa using hinvalid
  bad_word := by simpa using hbad
  ok_info h := absurd (by simpa using h) hkind
  no_output h := by
    rw [retire_outCount, raise_outCount, hnone (by simpa using h)]
    rfl
  error_result _ := rfl
  result_width := by rw [retire_result, raise_result]; decide
  count_bound := (countWord_le out).trans hout

theorem retire_lengthError_coherent {mult op : BitVec 4} (len : BitVec 28)
    (h : (op = 0x1#4 ∧ mult = 4#4) ∨ (op = 0x2#4 ∧ mult = 5#4)) :
    (s.retire (lengthError mult op len)).RegistersCoherent :=
  retire_raise_coherent s (by decide) (fun _ => rfl) (absurd rfl) (fun _ => h) (fun h => absurd h (by decide))
    (fun h => absurd h (by decide)) (fun _ => rfl) (Nat.zero_le _)

theorem retire_badCommand_coherent (cmd : Word) : (s.retire (badCommand cmd)).RegistersCoherent :=
  retire_raise_coherent s (by decide) (fun _ => rfl) (fun _ => rfl) (fun h => absurd h (by decide))
    (fun h => absurd h (by decide)) (fun _ => rfl) (fun _ => rfl) (Nat.zero_le _)

theorem retire_decodeEnd_coherent {out : List Byte} (bad : Option (Byte × Nat)) (hout : out.length ≤ 335544315) :
    (s.retire (decodeEnd out bad)).RegistersCoherent := by
  rcases bad with _ | ⟨c, pos⟩
  · exact retire_success_coherent s _ (by decide) hout
  · exact retire_raise_coherent s (by decide) (absurd rfl) (fun _ => rfl) (fun h => absurd h (by decide)) (fun _ => rfl)
      (fun h => absurd h (by decide)) (fun h => absurd h (by decide)) hout

end Retire

theorem byteWord_lt (b : Byte) : (byteWord b).toNat < 1024 := by
  rw [byteWord, BitVec.toNat_setWidth]
  omega

/-- A REV_LOOKUP answer has ten bits (R68). -/
theorem revResult_lt (cfg : Config) (b : Byte) : (revResult cfg b).toNat < 1024 := by
  have hhigh : (revResult cfg b).extractLsb' 10 22 = 0#22 := by
    unfold revResult
    split
    · iterate 2 rw [BitVec.extractLsb'_append_eq_of_le (by decide)]
      exact BitVec.extractLsb'_append_eq_left
    · decide
  have hshift := congrArg BitVec.toNat hhigh
  rw [BitVec.extractLsb'_toNat, Nat.shiftRight_eq_div_pow] at hshift
  simp only [BitVec.toNat_ofNat] at hshift
  omega

theorem completeActive_coherent {tr : Transaction} {s t : State} (htr : tr.Coherent)
    (h : completeActive tr s = .next t) : t.RegistersCoherent := by
  obtain ⟨c, rfl, hc⟩ := completeActive_cases h
  rcases hc with ⟨len, -, rfl⟩ | ⟨len, -, rfl⟩ | ⟨_, _, -, rfl⟩ | ⟨_, -, rfl⟩ | ⟨_, -, rfl⟩
  · split
    · exact retire_lengthError_coherent s len (.inl ⟨rfl, rfl⟩)
    · exact retire_success_coherent s _ (by decide) htr.written_le
  · split
    · exact retire_lengthError_coherent s len (.inr ⟨rfl, rfl⟩)
    · exact retire_decodeEnd_coherent s _ htr.written_le
  · exact retire_success_coherent s _ (byteWord_lt _) (Nat.zero_le _)
  · exact retire_success_coherent s _ (revResult_lt _ _) (Nat.zero_le _)
  · exact retire_badCommand_coherent s _

/-! ### The invariant -/

/-- A move of a block out of reset that leaves parameters, registers and transaction as the invariant asks keeps it. -/
theorem State.Inv.of_move {s t : State} (hs : s.Inv) (hcfg : t.cfg = s.cfg) (hreset : t.resetAsserted = false)
    (hregisters : t.RegistersCoherent) (htransaction : ∀ tr, t.active = some tr → tr.Coherent) : t.Inv where
  legal := hcfg ▸ hs.legal
  registers := hregisters
  transaction := htransaction
  quiet_in_reset h := by simp [hreset] at h

theorem tick_inv {tr : Transaction} {s t : State} (hs : s.Inv) (hr : s.resetAsserted = false)
    (ha : s.active = some tr) (h : tick tr s = .next t) : t.Inv := by
  have htr : tr.Coherent := hs.transaction tr ha
  have hmove : ∀ u : Transaction, u.Coherent → ∀ v, some u = some v → v.Coherent :=
    fun u hu v huv => Option.some.inj huv ▸ hu
  rcases tick_cases h with ⟨b, bs, hp, -, rfl⟩ | ⟨b, rest, hp, hlt, -, rfl⟩ | ⟨-, -, hc⟩
  · exact hs.of_move rfl hr (hs.registers.of_sameRegisters ⟨rfl, rfl, rfl, rfl, rfl⟩) (hmove _ (htr.write hp))
  · exact hs.of_move rfl hr (hs.registers.of_sameRegisters ⟨rfl, rfl, rfl, rfl, rfl⟩)
      (hmove _ (feed_coherent htr hp hlt b))
  · have hregisters : t.RegistersCoherent := completeActive_coherent htr hc
    obtain ⟨c, rfl, -⟩ := completeActive_cases hc
    exact hs.of_move rfl hr hregisters nofun

theorem byteStep_inv {s t : State} (hs : s.Inv) (h : byteStep s = .next t) : t.Inv := by
  obtain ⟨hr, ⟨tr, ha, ht⟩ | ⟨cmd, later, -, -, rfl⟩⟩ := byteStep_cases h
  · exact tick_inv hs hr ha ht
  · refine hs.of_move rfl hr (hs.registers.of_sameRegisters (start_sameRegisters cmd later s)) fun tr htr => ?_
    cases htr
    exact fresh_coherent cmd

/-- A step is a run of byte-level steps: of one where a transaction is in progress, and of O43's where none is. -/
theorem reaches_of_step {s t : State} (h : step s = .next t) : Reaches s t := by
  obtain ⟨hr, -⟩ := step_cases h
  rcases ha : s.active with _ | tr
  · rcases hc : s.commands with _ | ⟨cmd, later⟩
    · simp [step, hr, ha, hc] at h
    · exact byteStepsReachTheTransactionStep s t cmd later hr ha hc h
  · exact reaches_of_byteStep ((byteStep_busy hr ha).trans ((step_busy hr ha).symm.trans h))

/-- Settles O49: a byte-level step keeps the invariant, and so does a step, which is a run of them. -/
theorem invariantKeptByEveryStep : Obligations.InvariantKeptByEveryStep := by
  rintro s t hs (h | h)
  · exact (reaches_of_step h).keeps (fun _ _ => byteStep_inv) hs
  · exact byteStep_inv hs h

/-- Settles O48: every register is 0, nothing is in progress, and the input stream is empty. -/
theorem invariantHoldsAtReset : Obligations.InvariantHoldsAtReset := by
  refine ⟨⟨by decide, ?_, nofun, nofun⟩, Nat.zero_le _⟩
  constructor <;> decide

end Sys2Proof.Machine
end

section
/-! PROOFS. Family 20_memory.md: the byte order of a chunk (R38), the order of the command words (R33, R42) and of the bytes on the two
streams (R35, R37), what a completed command has consumed and leaves (R36, R40), when a command has to wait (R120, R122), and the
invariant through the host's actions (R34, R115). -/

namespace Sys2Proof.Machine

/-! ### The byte order of a chunk -/

theorem toNat_append_byte {w : Nat} (hi : BitVec w) (lo : Byte) : (hi ++ lo).toNat = hi.toNat * 2 ^ 8 + lo.toNat := by
  rw [BitVec.toNat_append, ← Nat.shiftLeft_add_eq_or_of_lt lo.isLt, Nat.shiftLeft_eq]

theorem toNat_wordOfBytes (b0 b1 b2 b3 : Byte) :
    (wordOfBytes b0 b1 b2 b3).toNat =
      b0.toNat * 2 ^ 24 + b1.toNat * 2 ^ 16 + b2.toNat * 2 ^ 8 + b3.toNat := by
  rw [wordOfBytes, toNat_append_byte, toNat_append_byte, toNat_append_byte]
  omega

theorem bytesOfWord_wordOfBytes (b0 b1 b2 b3 : Byte) : bytesOfWord (wordOfBytes b0 b1 b2 b3) = [b0, b1, b2, b3] := by
  have h0 : (wordOfBytes b0 b1 b2 b3).extractLsb' 24 8 = b0 := by
    rw [wordOfBytes]
    iterate 2 rw [BitVec.extractLsb'_append_eq_of_le (by decide)]
    exact BitVec.extractLsb'_append_eq_left
  have h1 : (wordOfBytes b0 b1 b2 b3).extractLsb' 16 8 = b1 := by
    rw [wordOfBytes]
    iterate 2 rw [BitVec.extractLsb'_append_eq_of_le (by decide)]
    exact BitVec.extractLsb'_append_eq_right
  have h2 : (wordOfBytes b0 b1 b2 b3).extractLsb' 8 8 = b2 := by
    rw [wordOfBytes, BitVec.extractLsb'_append_eq_of_le (by decide)]
    exact BitVec.extractLsb'_append_eq_right
  have h3 : (wordOfBytes b0 b1 b2 b3).extractLsb' 0 8 = b3 := BitVec.extractLsb'_append_eq_right
  rw [bytesOfWord, h0, h1, h2, h3]

/-- The four bytes of a word, put together again, are the word. -/
theorem wordOfBytes_bytes (w : Word) :
    wordOfBytes (w.extractLsb' 24 8) (w.extractLsb' 16 8) (w.extractLsb' 8 8) (w.extractLsb' 0 8) = w := by
  simp only [wordOfBytes]
  rw [BitVec.extractLsb'_append_extractLsb'_eq_extractLsb' (by decide),
    BitVec.extractLsb'_append_extractLsb'_eq_extractLsb' (by decide),
    BitVec.extractLsb'_append_extractLsb'_eq_extractLsb' (by decide)]
  exact BitVec.extractLsb'_eq_self

/-- Settles O18: the value of the four bytes, and the two ways back. -/
theorem chunkBytesAreBigEndian : Obligations.ChunkBytesAreBigEndian := by
  refine ⟨fun b0 b1 b2 b3 => ⟨toNat_wordOfBytes b0 b1 b2 b3, bytesOfWord_wordOfBytes b0 b1 b2 b3⟩,
    fun w b0 b1 b2 b3 h => ?_⟩
  obtain ⟨rfl, rfl, rfl, rfl⟩ : w.extractLsb' 24 8 = b0 ∧ w.extractLsb' 16 8 = b1 ∧ w.extractLsb' 8 8 = b2 ∧
      w.extractLsb' 0 8 = b3 := by
    simpa [bytesOfWord] using h
  exact wordOfBytes_bytes w

/-! ### The command port -/

theorem runCommand_of_ok {cmd : Word} {i : Instr} (hd : decode cmd = .ok i) (s : State) : runCommand cmd s = exec i s := by
  simp only [runCommand, hd]

/-- Settles O34: the next word's run is `exec` of what it decodes to. -/
theorem stepRunsTheDecodedCommand : Obligations.StepRunsTheDecodedCommand :=
  fun _ _ _ _ hr ha hc hd => (step_idle hr ha hc).trans (runCommand_of_ok hd _)

theorem exec_commands {i : Instr} {s t : State} (h : exec i s = .next t) : t.commands = s.commands := by
  rcases exec_cases h with ⟨_, -, -, rfl⟩ | ⟨_, -, -, rfl⟩ | ⟨_, _, -, rfl⟩ | ⟨_, -, rfl⟩ | rfl <;> rfl

theorem tick_commands {tr : Transaction} {s t : State} (h : tick tr s = .next t) : t.commands = s.commands := by
  rcases tick_cases h with ⟨_, _, -, -, rfl⟩ | ⟨_, _, -, -, -, rfl⟩ | ⟨-, -, hc⟩
  · rfl
  · rfl
  · obtain ⟨c, rfl, -⟩ := completeActive_cases hc
    exact retire_commands c s

/-- Settles O36: only an acceptance touches the port, and it takes the first word. -/
theorem commandWordsKeepTheirOrder : Obligations.CommandWordsKeepTheirOrder := by
  rintro s t (h | h)
  · obtain ⟨-, ⟨_, ha, ht⟩ | ⟨cmd, later, _, ha, hc, -, he⟩ | ⟨cmd, _, _, ha, hc, -, rfl⟩⟩ := step_cases h
    · exact .inr ⟨by rw [ha]; rfl, tick_commands ht⟩
    · have hlater : t.commands = later := exec_commands he
      exact .inl ⟨ha, cmd, by rw [hc, hlater]⟩
    · exact .inl ⟨ha, cmd, hc⟩
  · obtain ⟨-, ⟨_, ha, ht⟩ | ⟨cmd, _, ha, hc, rfl⟩⟩ := byteStep_cases h
    · exact .inr ⟨by rw [ha]; rfl, tick_commands ht⟩
    · exact .inl ⟨ha, cmd, hc⟩

/-! ### The two streams -/

/-- From `s` to `t` bytes have only left the front of the input stream and only been added at the end of the output stream. -/
def State.StreamsAdvanceTo (s t : State) : Prop :=
  ∃ (n : Nat) (out : List Byte), n ≤ s.input.length ∧ t.input = s.input.drop n ∧ t.output = s.output ++ out

theorem State.StreamsAdvanceTo.of_eq {s t : State} (hinput : t.input = s.input) (houtput : t.output = s.output) :
    s.StreamsAdvanceTo t :=
  ⟨0, [], Nat.zero_le _, hinput, by rw [houtput, List.append_nil]⟩

theorem State.StreamsAdvanceTo.trans {s t u : State} (hst : s.StreamsAdvanceTo t) (htu : t.StreamsAdvanceTo u) :
    s.StreamsAdvanceTo u := by
  obtain ⟨n, out, hn, hi, ho⟩ := hst
  obtain ⟨m, out', hm, hi', ho'⟩ := htu
  rw [hi, List.length_drop] at hm
  exact ⟨n + m, out ++ out', by omega, by rw [hi', hi, List.drop_drop], by rw [ho', ho, List.append_assoc]⟩

theorem tick_streamsAdvance {tr : Transaction} {s t : State} (h : tick tr s = .next t) : s.StreamsAdvanceTo t := by
  rcases tick_cases h with ⟨b, _, -, -, rfl⟩ | ⟨b, rest, -, -, hi, rfl⟩ | ⟨-, -, hc⟩
  · exact ⟨0, [b], Nat.zero_le _, rfl, rfl⟩
  · exact ⟨1, [], by rw [hi]; exact Nat.le_add_left 1 _, by rw [hi]; rfl, (List.append_nil _).symm⟩
  · obtain ⟨c, rfl, -⟩ := completeActive_cases hc
    exact .of_eq (retire_input c s) (retire_output c s)

theorem byteStep_streamsAdvance {s t : State} (h : byteStep s = .next t) : s.StreamsAdvanceTo t := by
  obtain ⟨-, ⟨_, -, ht⟩ | ⟨_, _, -, -, rfl⟩⟩ := byteStep_cases h
  · exact tick_streamsAdvance ht
  · exact .of_eq rfl rfl

/-- Settles O37: a byte-level step moves one byte at most, and a step is a run of them. -/
theorem streamsOnlyAdvance : Obligations.StreamsOnlyAdvance := by
  rintro s t (h | h)
  · exact (reaches_of_step h).keeps (P := s.StreamsAdvanceTo) (fun _ _ hu hs => hu.trans (byteStep_streamsAdvance hs))
      (.of_eq rfl rfl)
  · exact byteStep_streamsAdvance h

/-! ### The completion of a command in one step -/

/-- What a command word completes with, given the input bytes it owes; no word asks for an `alphabet_lut` entry that does not exist
(R60). -/
def completionOf (cfg : Config) (cmd : Word) (bytes : List Byte) : Option Completion :=
  match decode cmd with
  | .ok (.encode len) => some (encodeCompletion len bytes)
  | .ok (.decode len) => some (decodeCompletion cfg len bytes)
  | .ok (.alphaLookup idx) =>
    if h : idx.toNat < 85 then some (.success 0x3#4 (byteWord (alpha ⟨idx.toNat, h⟩)) []) else none
  | .ok (.revLookup byte) => some (.success 0x4#4 (revResult cfg byte) [])
  | .error _ => some (badCommand cmd)

/-- A command that completes in its step had the bytes it owes, and finishes with what its word and they give. -/
theorem runCommand_completes {cmd : Word} {s t : State} (h : runCommand cmd s = .next t) (ht : t.active = none) :
    inputNeed cmd ≤ s.input.length ∧
      ∃ c : Completion, completionOf s.cfg cmd (s.input.take (inputNeed cmd)) = some c ∧
        t = s.finish (inputNeed cmd) c := by
  unfold runCommand at h
  split at h
  next i hd =>
    rcases exec_cases h with ⟨len, rfl, hn, rfl⟩ | ⟨len, rfl, hn, rfl⟩ | ⟨idx, hi, rfl, rfl⟩ | ⟨byte, rfl, rfl⟩ | rfl
    · simp [inputNeed, completionOf, hd, hn]
    · simp [inputNeed, completionOf, hd, hn]
    · simp [inputNeed, completionOf, hd, hi]
    · simp [inputNeed, completionOf, hd]
    · simp at ht
  next r hd =>
    cases h
    simp [inputNeed, completionOf, hd]

/-! ### OUT_COUNT is the number of output bytes -/

/-- Five characters per four bytes (R76). -/
theorem encodeBytes_length (bytes : List Byte) : (encodeBytes bytes).length = 5 * (bytes.length / 4) := by
  induction bytes using encodeBytes.induct with
  | case1 b0 b1 b2 b3 rest ih =>
    rw [encodeBytes, List.length_append, ih, encChunk, encWord_length]
    simp only [List.length_cons]
    omega
  | case2 bytes hshort =>
    have hlt : bytes.length < 4 := by
      match bytes, hshort with
      | [], _ | [_], _ | [_, _], _ | [_, _, _], _ => simp
      | b0 :: b1 :: b2 :: b3 :: rest, h => exact absurd rfl (h b0 b1 b2 b3 rest)
    rw [encodeBytes.eq_2 _ hshort, List.length_nil]
    omega

/-- Four bytes per five characters, up to a chunk that fails (R87, R88). -/
theorem decodeBytes_out_length_le (cfg : Config) (pos : Nat) (chars : List Byte) :
    (decodeBytes cfg pos chars).out.length ≤ 4 * (chars.length / 5) := by
  induction pos, chars using decodeBytes.induct (cfg := cfg) with
  | case1 pos c0 c1 c2 c3 c4 rest b p hb => simp [decodeBytes, hb]
  | case2 pos c0 c1 c2 c3 c4 rest w hw ih =>
    simp only [decodeBytes, hw, List.length_append, bytesOfWord_length, List.length_cons]
    omega
  | case3 chars pos hshort => simp [decodeBytes.eq_2 _ _ _ hshort]

/-- OUT_COUNT of the completion is the number of its output bytes (R21). -/
def Completion.CountsOutput (c : Completion) : Prop := c.outCount.toNat = c.out.length

/-- The count is exact where 32 bits hold it. -/
theorem countsOutput_of_countWord {c : Completion} (hcount : c.outCount = countWord c.out)
    (hout : c.out.length < 2 ^ 32) : c.CountsOutput := by
  rw [Completion.CountsOutput, hcount, countWord, BitVec.toNat_ofNat, Nat.mod_eq_of_lt hout]

theorem lengthError_countsOutput (mult op : BitVec 4) (len : BitVec 28) : (lengthError mult op len).CountsOutput := rfl

theorem badCommand_countsOutput (cmd : Word) : (badCommand cmd).CountsOutput := rfl

theorem encodeCompletion_countsOutput (len : BitVec 28) {bytes : List Byte} (h : bytes.length < 2 ^ 28) :
    (encodeCompletion len bytes).CountsOutput := by
  unfold encodeCompletion
  split
  · exact lengthError_countsOutput _ _ _
  · refine countsOutput_of_countWord rfl ?_
    rw [success_out, encodeBytes_length]
    omega

theorem decodeCompletion_countsOutput (cfg : Config) (len : BitVec 28) {chars : List Byte} (h : chars.length < 2 ^ 28) :
    (decodeCompletion cfg len chars).CountsOutput := by
  unfold decodeCompletion
  split
  · exact lengthError_countsOutput _ _ _
  · refine countsOutput_of_countWord ?_ ?_
    · rcases (decodeBytes cfg 0 chars).bad with _ | ⟨c, pos⟩ <;> rfl
    · have hout := decodeBytes_out_length_le cfg 0 chars
      rw [decodeEnd_out]
      omega

theorem completionOf_countsOutput {cfg : Config} {cmd : Word} {bytes : List Byte} {c : Completion}
    (hc : completionOf cfg cmd bytes = some c) (h : bytes.length < 2 ^ 28) : c.CountsOutput := by
  unfold completionOf at hc
  split at hc
  · cases hc; exact encodeCompletion_countsOutput _ h
  · cases hc; exact decodeCompletion_countsOutput _ _ h
  · split at hc <;> cases hc
    rfl
  · cases hc; rfl
  · cases hc; exact badCommand_countsOutput _

/-- No command owes more bytes than LEN counts (R47). -/
theorem inputNeed_lt (cmd : Word) : inputNeed cmd < 2 ^ 28 := by
  unfold inputNeed
  split
  next len _ => exact len.isLt
  next len _ => exact len.isLt
  all_goals decide

/-- Settles O38: the step is the word's run, and what that completes with counts its own output. -/
theorem completedCommandConsumesItsBytes : Obligations.CompletedCommandConsumesItsBytes := by
  intro s t cmd later ha hc h ht
  rw [step_idle (step_cases h).1 ha hc] at h
  obtain ⟨hn, c, hcompletion, rfl⟩ := runCommand_completes h ht
  refine ⟨hn, rfl, c.out, rfl, completionOf_countsOutput hcompletion ?_⟩
  rw [List.length_take_of_le hn]
  exact inputNeed_lt cmd

/-! ### A command's result is its own -/

/-- The word of a legal command decodes to it (R45 to R52). -/
theorem decode_encode_of_wf {i : Instr} (h : i.wf = true) : decode (encode i) = .ok i := by
  cases i with
  | encode len => simp [decode, encode, Instr.op, Instr.arg]
  | decode len => simp [decode, encode, Instr.op, Instr.arg]
  | alphaLookup idx =>
    have hidx : idx.toNat ≤ 84 := by simpa [Instr.wf] using h
    have hhigh : (0#21 ++ idx).extractLsb' 7 21 = 0#21 := BitVec.extractLsb'_append_eq_left
    have hlow : (0#21 ++ idx).extractLsb' 0 7 = idx := BitVec.extractLsb'_append_eq_right
    simp [decode, encode, Instr.op, Instr.arg, decodeAlpha, hhigh, hlow, hidx]
  | revLookup byte =>
    have hhigh : (0#20 ++ byte).extractLsb' 8 20 = 0#20 := BitVec.extractLsb'_append_eq_left
    have hlow : (0#20 ++ byte).extractLsb' 0 8 = byte := BitVec.extractLsb'_append_eq_right
    simp [decode, encode, Instr.op, Instr.arg, decodeRev, hhigh, hlow]

/-- Settles O40: both runs finish with the one completion that word, bytes and parameters give. -/
theorem commandResultIgnoresEarlierCommands : Obligations.CommandResultIgnoresEarlierCommands := by
  intro i s₁ s₂ t₁ t₂ hwf hcfg hinput h₁ h₂ ht₁ ht₂
  have hrun : ∀ s, runCommand (encode i) s = exec i s := runCommand_of_ok (decode_encode_of_wf hwf)
  obtain ⟨-, c₁, hc₁, rfl⟩ := runCommand_completes ((hrun s₁).trans h₁) ht₁
  obtain ⟨-, c₂, hc₂, rfl⟩ := runCommand_completes ((hrun s₂).trans h₂) ht₂
  obtain rfl : c₁ = c₂ := by
    rw [hcfg, hinput] at hc₁
    exact Option.some.inj (hc₁.symm.trans hc₂)
  exact ⟨rfl, rfl, rfl, rfl, c₁.outcome, c₁.out, rfl, rfl, rfl, rfl⟩

/-! ### A command that has to wait -/

/-- A chunk none of whose characters is INVALID gives a word (R80). -/
theorem decChunkFrom_word_of_valid {cfg : Config} {cs : List Byte} (h : ∀ c ∈ cs, decChar cfg c ≠ none) (p : Nat)
    (acc : Word) : ∃ w, decChunkFrom cfg p acc cs = .word w := by
  induction cs generalizing p acc with
  | nil => exact ⟨acc, rfl⟩
  | cons c cs ih =>
    obtain ⟨hc, hcs⟩ := List.forall_mem_cons.1 h
    obtain ⟨r, hr⟩ := Option.ne_none_iff_exists'.1 hc
    obtain ⟨w, hw⟩ := ih hcs (p + 1) (accumulate acc r)
    exact ⟨w, by rw [decChunkFrom, hr]; exact hw⟩

/-- Characters whose first chunk decodes give output (R85). -/
theorem decodeBytes_out_ne_nil {cfg : Config} (pos : Nat) {chars : List Byte} (hlen : 5 ≤ chars.length)
    (hvalid : ∀ i, i < 5 → decChar cfg (chars.getD i 0#8) ≠ none) : (decodeBytes cfg pos chars).out ≠ [] := by
  match chars, hlen, hvalid with
  | c0 :: c1 :: c2 :: c3 :: c4 :: rest, _, hvalid =>
    have hchunk : ∀ c ∈ [c0, c1, c2, c3, c4], decChar cfg c ≠ none := by
      simpa using And.intro (hvalid 0 (by decide)) <| And.intro (hvalid 1 (by decide)) <|
        And.intro (hvalid 2 (by decide)) <| And.intro (hvalid 3 (by decide)) (hvalid 4 (by decide))
    obtain ⟨w, hw⟩ := decChunkFrom_word_of_valid hchunk 0 0#32
    rw [← decChunk] at hw
    simp [decodeBytes, hw, bytesOfWord]

theorem encodeCompletion_out_ne_nil {len : BitVec 28} {bytes : List Byte} (hmod : len.toNat % 4 = 0) (hne : len ≠ 0#28)
    (hbytes : bytes.length = len.toNat) : (encodeCompletion len bytes).out ≠ [] := by
  have hpos : len.toNat ≠ 0 := fun h => hne (BitVec.eq_of_toNat_eq h)
  rw [encodeCompletion, if_neg (not_not.2 hmod), success_out, ← List.length_pos_iff, encodeBytes_length, hbytes]
  omega

theorem decodeCompletion_out_ne_nil {cfg : Config} {len : BitVec 28} {chars : List Byte} (hmod : len.toNat % 5 = 0)
    (hlen : 5 ≤ chars.length) (hvalid : ∀ i, i < 5 → decChar cfg (chars.getD i 0#8) ≠ none) :
    (decodeCompletion cfg len chars).out ≠ [] := by
  rw [decodeCompletion, if_neg (not_not.2 hmod), decodeEnd_out]
  exact decodeBytes_out_ne_nil 0 hlen hvalid

/-- A command goes into progress where its input is not all there, or where it would have output that the host does not take. -/
theorem transact_waits {cmd : Word} {n : Nat} {run : List Byte → Completion} {s : State}
    (h : s.input.length < n ∨ (s.outReady = false ∧ (n ≤ s.input.length → (run (s.input.take n)).out ≠ []))) :
    transact cmd n run s = .next (s.start cmd) := by
  refine transact_start ?_
  rintro ⟨hn, ho⟩
  rcases h with hlt | ⟨hready, hout⟩
  · omega
  · rcases ho with hready' | hnil
    · simp [hready] at hready'
    · exact hout hn hnil

/-- Settles O41: where the input is there, the command has output, which the host does not take. -/
theorem commandThatMustWaitGoesIntoProgress : Obligations.CommandThatMustWaitGoesIntoProgress := by
  refine fun len s => ⟨fun h => transact_waits (h.imp_right ?_), fun h => transact_waits (h.imp_right ?_)⟩
  · rintro ⟨hready, hmod, hne⟩
    exact ⟨hready, fun hn => encodeCompletion_out_ne_nil hmod hne (List.length_take_of_le hn)⟩
  · rintro ⟨hready, hmod, hne, hvalid⟩
    have hpos : len.toNat ≠ 0 := fun h => hne (BitVec.eq_of_toNat_eq h)
    refine ⟨hready, fun hn => decodeCompletion_out_ne_nil hmod ?_ fun i hi => ?_⟩
    · rw [List.length_take_of_le hn]; omega
    · have hbyte : (s.input.take len.toNat).getD i 0#8 = s.byteIn i := by
        rw [List.getD_eq_getElem?_getD, List.getElem?_take_of_lt (by omega), State.byteIn, List.getD_eq_getElem?_getD]
      rw [hbyte]
      exact hvalid i hi

/-! ### The invariant through the host's actions -/

/-- A host action that leaves the block in reset, but for the assertion itself, found it there and presented nothing (R118). -/
theorem hostAct_in_reset {a : HostAction} {s t : State} (ha : a ≠ .assertReset) (h : hostAct a s = .next t)
    (hr : t.resetAsserted = true) : s.resetAsserted = true ∧ t.commands = s.commands := by
  cases a with
  | issue =>
    simp only [hostAct] at h
    split at h <;> cases h
    exact absurd hr ‹_›
  | send =>
    simp only [hostAct] at h
    split at h
    · cases h
    · exact absurd hr (by split at h <;> cases h; assumption)
  | recv =>
    simp only [hostAct] at h
    split at h <;> cases h
    exact ⟨hr, rfl⟩
  | recvAll | read | pollPort | setReady => cases h; exact ⟨hr, rfl⟩
  | releaseReset => cases h; cases hr
  | assertReset => exact absurd rfl ha

/-- Reset leaves the registers of `State.reset` and nothing in progress (R115). -/
theorem abandon_inv {s : State} (hs : s.Inv) : s.abandon.Inv where
  legal := hs.legal
  registers := { invariantHoldsAtReset.1.registers with }
  transaction := nofun
  quiet_in_reset _ := ⟨rfl, rfl⟩

/-- Settles O50: reset gives a quiet block, and no other action touches parameters, registers or transaction. -/
theorem invariantKeptByHostActions : Obligations.InvariantKeptByHostActions := by
  intro a s t hs h
  by_cases ha : a = .assertReset
  · subst ha
    cases h
    exact abandon_inv hs
  · obtain ⟨hsame, hactive⟩ := hostAct_frame ha h
    refine ⟨hsame.cfg ▸ hs.legal, hs.registers.of_sameRegisters hsame, hactive ▸ hs.transaction, fun hr => ?_⟩
    obtain ⟨hreset, hcommands⟩ := hostAct_in_reset ha h hr
    rw [hactive, hcommands]
    exact hs.quiet_in_reset hreset

end Sys2Proof.Machine
end

section
/-! PROOFS. Family 30_encoding.md: the round trip of decoder and encoder (R45 to R52), the opcode map (R52), the illegal words (R53),
and the run of the next word (R51, R53). -/

namespace Sys2Proof.Machine

/-! ### Words taken apart at a bit -/

/-- A word is its upper bits before its lower ones, and no other pair gives it. -/
theorem append_eq_iff {n k : Nat} {hi : BitVec n} {lo : BitVec k} {x : BitVec (n + k)} :
    hi ++ lo = x ↔ x.extractLsb' k n = hi ∧ x.extractLsb' 0 k = lo := by
  constructor
  · rintro rfl
    exact ⟨BitVec.extractLsb'_append_eq_left, BitVec.extractLsb'_append_eq_right⟩
  · rintro ⟨rfl, rfl⟩
    rw [BitVec.extractLsb'_append_extractLsb'_eq_extractLsb' (Nat.zero_add k).symm, BitVec.extractLsb'_eq_self]

/-- The words with given upper bits, as match and mask: the mask covers the upper bits, and the match is 0 below them (R52). -/
theorem append_eq_iff_mask {n k : Nat} {hi : BitVec n} {lo : BitVec k} {x mask value : BitVec (n + k)}
    (hmask : mask = BitVec.allOnes n ++ 0#k) (hvalue : value = hi ++ 0#k) :
    hi ++ lo = x ↔ x &&& mask = value ∧ lo = x.extractLsb' 0 k := by
  have hupper : x &&& mask = x.extractLsb' k n ++ 0#k := by
    have hx : x.extractLsb' k n ++ x.extractLsb' 0 k = x := append_eq_iff.2 ⟨rfl, rfl⟩
    conv_lhs => rw [← hx, hmask, BitVec.and_append, BitVec.and_allOnes, BitVec.and_zero]
  rw [hupper, hvalue, append_eq_iff, BitVec.append_left_inj, eq_comm (a := lo)]

/-! ### The round trip -/

/-- Settles O6: format by format, the word's fields are the ones it was put together from. -/
theorem decodeOfEncodeIsTheCommand : Obligations.DecodeOfEncodeIsTheCommand := fun _ => decode_encode_of_wf

/-- A word's own halves, where they are a command's OP and ARG, make it that command's word (R45). -/
theorem encode_eq_iff {i : Instr} {cmd : Word} : encode i = cmd ↔ opField cmd = i.op ∧ argField cmd = i.arg :=
  append_eq_iff

/-- What format A gives has the ARG it was taken from (R48). -/
theorem decodeAlpha_ok {arg : BitVec 28} {i : Instr} (h : decodeAlpha arg = .ok i) :
    i.wf = true ∧ i.op = 0x3#4 ∧ i.arg = arg := by
  unfold decodeAlpha at h
  split_ifs at h with hrsv hidx
  cases h
  exact ⟨by simpa [Instr.wf] using hidx, rfl, append_eq_iff.2 ⟨not_not.1 hrsv, rfl⟩⟩

/-- What format B gives has the ARG it was taken from (R49). -/
theorem decodeRev_ok {arg : BitVec 28} {i : Instr} (h : decodeRev arg = .ok i) :
    i.wf = true ∧ i.op = 0x4#4 ∧ i.arg = arg := by
  unfold decodeRev at h
  split_ifs at h with hrsv
  cases h
  exact ⟨rfl, rfl, append_eq_iff.2 ⟨not_not.1 hrsv, rfl⟩⟩

/-- What a word decodes to is legal and has the word's OP and ARG. -/
theorem decode_ok {cmd : Word} {i : Instr} (h : decode cmd = .ok i) :
    i.wf = true ∧ i.op = opField cmd ∧ i.arg = argField cmd := by
  unfold decode at h
  split_ifs at h with h1 h2 h3 h4
  · cases h; exact ⟨rfl, h1.symm, rfl⟩
  · cases h; exact ⟨rfl, h2.symm, rfl⟩
  · rw [h3]; exact decodeAlpha_ok h
  · rw [h4]; exact decodeRev_ok h

/-- Settles O7: the command has the word's two fields, and they are the whole word. -/
theorem encodeOfDecodeIsTheWord : Obligations.EncodeOfDecodeIsTheWord := by
  intro cmd i h
  obtain ⟨hwf, hop, harg⟩ := decode_ok h
  exact ⟨hwf, encode_eq_iff.2 ⟨hop.symm, harg.symm⟩⟩

/-- Both directions of the round trip: the words that decode to a command are the encodings of the legal ones. -/
theorem decode_eq_ok_iff {cmd : Word} {i : Instr} : decode cmd = .ok i ↔ i.wf = true ∧ encode i = cmd :=
  ⟨encodeOfDecodeIsTheWord cmd i, fun ⟨hwf, hcmd⟩ => hcmd ▸ decode_encode_of_wf hwf⟩

/-! ### The opcode map: a row's operand is what stands below its mask -/

section Rows
variable {cmd : Word}

theorem decode_eq_encode_iff {len : BitVec 28} :
    decode cmd = .ok (.encode len) ↔ cmd &&& 0xF0000000#32 = 0x10000000#32 ∧ len = cmd.extractLsb' 0 28 :=
  decode_eq_ok_iff.trans ((and_iff_right rfl).trans (append_eq_iff_mask (hi := 0x1#4) (by decide) (by decide)))

theorem decode_eq_decode_iff {len : BitVec 28} :
    decode cmd = .ok (.decode len) ↔ cmd &&& 0xF0000000#32 = 0x20000000#32 ∧ len = cmd.extractLsb' 0 28 :=
  decode_eq_ok_iff.trans ((and_iff_right rfl).trans (append_eq_iff_mask (hi := 0x2#4) (by decide) (by decide)))

/-- Above IDX stand OP and the 21 reserved bits (R48). -/
theorem decode_eq_alphaLookup_iff {idx : BitVec 7} :
    decode cmd = .ok (.alphaLookup idx) ↔
      cmd &&& 0xFFFFFF80#32 = 0x30000000#32 ∧ (cmd.extractLsb' 0 7).toNat ≤ 84 ∧ idx = cmd.extractLsb' 0 7 := by
  have hword : encode (.alphaLookup idx) = (0x3#4 ++ 0#21 : BitVec 25) ++ idx := by
    rw [encode, Instr.op, Instr.arg, BitVec.append_assoc', BitVec.cast_eq]
  have hrow : (0x3#4 ++ 0#21 : BitVec 25) ++ idx = cmd ↔
      cmd &&& 0xFFFFFF80#32 = 0x30000000#32 ∧ idx = cmd.extractLsb' 0 7 := append_eq_iff_mask (by decide) (by decide)
  rw [decode_eq_ok_iff, hword, hrow]
  constructor
  · rintro ⟨hwf, hmatch, rfl⟩
    exact ⟨hmatch, of_decide_eq_true hwf, rfl⟩
  · rintro ⟨hmatch, hidx, rfl⟩
    exact ⟨decide_eq_true hidx, hmatch, rfl⟩

/-- Above BYTE stand OP and the 20 reserved bits (R49). -/
theorem decode_eq_revLookup_iff {byte : Byte} :
    decode cmd = .ok (.revLookup byte) ↔ cmd &&& 0xFFFFFF00#32 = 0x40000000#32 ∧ byte = cmd.extractLsb' 0 8 := by
  have hword : encode (.revLookup byte) = (0x4#4 ++ 0#20 : BitVec 24) ++ byte := by
    rw [encode, Instr.op, Instr.arg, BitVec.append_assoc', BitVec.cast_eq]
  rw [decode_eq_ok_iff, hword]
  exact (and_iff_right rfl).trans (append_eq_iff_mask (by decide) (by decide))

end Rows

/-- A word is BAD where no command is its meaning (R51). -/
theorem decode_error_iff {cmd : Word} : (∃ r, decode cmd = .error r) ↔ ∀ i, decode cmd ≠ .ok i := by
  cases decode cmd <;> simp

/-- Settles O8: a row's word has the match in the bits its mask covers, and a BAD word has no row. -/
theorem opcodeMapMatchAndMask : Obligations.OpcodeMapMatchAndMask := by
  intro cmd
  refine ⟨fun _ => decode_eq_encode_iff, fun _ => decode_eq_decode_iff, fun _ => decode_eq_alphaLookup_iff,
    fun _ => decode_eq_revLookup_iff, decode_error_iff.trans ⟨fun h => ?_, ?_⟩⟩
  · exact ⟨fun hrow => h _ (decode_eq_encode_iff.2 ⟨hrow, rfl⟩), fun hrow => h _ (decode_eq_decode_iff.2 ⟨hrow, rfl⟩),
      fun ⟨hrow, hidx⟩ => h _ (decode_eq_alphaLookup_iff.2 ⟨hrow, hidx, rfl⟩),
      fun hrow => h _ (decode_eq_revLookup_iff.2 ⟨hrow, rfl⟩)⟩
  · rintro ⟨hencode, hdecode, halpha, hrev⟩ i hi
    cases i with
    | encode len => exact hencode (decode_eq_encode_iff.1 hi).1
    | decode len => exact hdecode (decode_eq_decode_iff.1 hi).1
    | alphaLookup idx =>
      obtain ⟨hrow, hidx, -⟩ := decode_eq_alphaLookup_iff.1 hi
      exact halpha ⟨hrow, hidx⟩
    | revLookup byte => exact hrev (decode_eq_revLookup_iff.1 hi).1

/-! ### The illegal words -/

theorem decodeAlpha_error_iff {arg : BitVec 28} :
    (∃ r, decodeAlpha arg = .error r) ↔ arg.extractLsb' 7 21 ≠ 0#21 ∨ 85 ≤ (arg.extractLsb' 0 7).toNat := by
  unfold decodeAlpha
  split_ifs with hrsv hidx
  · exact iff_of_true ⟨_, rfl⟩ (.inl hrsv)
  · exact iff_of_true ⟨_, rfl⟩ (.inr hidx)
  · exact iff_of_false nofun (not_or.2 ⟨hrsv, hidx⟩)

theorem decodeRev_error_iff {arg : BitVec 28} : (∃ r, decodeRev arg = .error r) ↔ arg.extractLsb' 8 20 ≠ 0#20 := by
  unfold decodeRev
  split_ifs with hrsv
  · exact iff_of_true ⟨_, rfl⟩ hrsv
  · exact iff_of_false nofun hrsv

/-- Settles O9: OP by OP, the two formats with reserved bits by their own checks. -/
theorem illegalWordsDecodeToBad : Obligations.IllegalWordsDecodeToBad := by
  intro cmd
  unfold decode
  split_ifs with h1 h2 h3 h4
  · simp [h1]
  · simp [h2]
  · simp [h3, decodeAlpha_error_iff]
  · simp [h4, decodeRev_error_iff]
  · have hop : opField cmd = 0x0#4 ∨ 5 ≤ (opField cmd).toNat := by bv_omega
    exact iff_of_true ⟨_, rfl⟩ (.inl hop)

/-- Settles O10: the ten words are decoded. -/
theorem sampleWordsDecode : Obligations.SampleWordsDecode := ⟨rfl, rfl, rfl, rfl, rfl, rfl, rfl, rfl, rfl, rfl⟩

/-! ### The run of the next word -/

theorem runCommand_of_error {cmd : Word} {r : BadReason} (hd : decode cmd = .error r) (s : State) :
    runCommand cmd s = execBad cmd s := by
  simp only [runCommand, hd]

/-- Settles O17: the word is BAD by R53's cases, and BAD is a completion without input and output. -/
theorem illegalWordRunsAsBadCommand : Obligations.IllegalWordRunsAsBadCommand := by
  intro s cmd later hr ha hc hillegal
  obtain ⟨r, hd⟩ := (illegalWordsDecodeToBad cmd).2 hillegal
  refine ⟨⟨r, hd⟩, ?_⟩
  rw [step_idle hr ha hc, runCommand_of_error hd, execBad, finish_zero_eq_retire _ _ rfl, State.retire]
  simp only [ha]
  rfl

/-- Settles O35: the word placed is the only one on the port of an idle block, and it decodes to its command. -/
theorem fetchWordRunsNext : Obligations.FetchWordRunsNext := by
  intro i s hwf
  have hword : BitVec.ofNat 32 ((encode i).toNat % 2 ^ 32) = encode i := by
    rw [Nat.mod_eq_of_lt (encode i).isLt, BitVec.ofNat_toNat, BitVec.setWidth_eq]
  have hport : (s.withFetchWord 32 (encode i).toNat).commands = [encode i] :=
    congrArg (fun w => [w]) hword
  rw [step_idle rfl rfl hport, runCommand_of_ok (decode_encode_of_wf hwf)]
  rfl

end Sys2Proof.Machine
end

section
/-! PROOFS. Family 40_luts.md: reverse_lookup_lut at every index (R62 to R65), the bytes alphabet_lut has and lacks (R59), and the
two lookup commands (R67, R68). Both columns are taken from `digitAt`, which has an entry of alphabet_lut exactly where there is one. -/

namespace Sys2Proof.Machine

/-! ### reverse_lookup_lut from alphabet_lut -/

section Entry
variable {k : Nat}

/-- Where alphabet_lut has the byte, its index is the DIGIT, and the entry is VALID (R62, R63). -/
theorem revEntry_of_alpha {d : Fin 85} (h : (alpha d).toNat = k + 32) : (revDigit k).toNat = d.val ∧ revValid k = true := by
  have hdigit : digitAt k = some d.val := by rw [← digitAt_alpha d, h, Nat.add_sub_cancel]
  have hfits : (BitVec.ofNat 8 d.val).toNat = d.val := Nat.mod_eq_of_lt (by omega)
  simp only [revDigit, revValid, hdigit]
  exact ⟨hfits, rfl⟩

/-- Where it does not, the entry is the sentinel and not VALID (R62, R63). -/
theorem revEntry_of_not_alpha (h : ∀ d : Fin 85, (alpha d).toNat ≠ k + 32) : revDigit k = 0x00#8 ∧ revValid k = false := by
  simp only [revDigit, revValid, digitAt_eq_none h]
  exact ⟨rfl, rfl⟩

theorem revValid_eq_false_iff : revValid k = false ↔ ∀ d : Fin 85, (alpha d).toNat ≠ k + 32 :=
  ⟨fun h _ hd => Bool.false_ne_true (h.symm.trans (revEntry_of_alpha hd).2), fun h => (revEntry_of_not_alpha h).2⟩

end Entry

/-- Settles O12: an index has one entry of alphabet_lut or none. -/
theorem reverseTableDerivedFromAlphabet : Obligations.ReverseTableDerivedFromAlphabet := by
  intro k
  refine ⟨fun _ => revEntry_of_alpha, revEntry_of_not_alpha, ?_⟩
  by_cases h : ∃ d : Fin 85, (alpha d).toNat = k + 32
  · obtain ⟨d, hd⟩ := h
    rw [(revEntry_of_alpha hd).1]
    exact Nat.le_of_lt_succ d.isLt
  · rw [(revEntry_of_not_alpha (not_exists.1 h)).1]
    decide

/-! ### The bytes of alphabet_lut -/

theorem alpha_bounds : ∀ d : Fin 85, 0x21 ≤ (alpha d).toNat ∧ (alpha d).toNat ≤ 0x7D := by decide +kernel

/-- reverse_lookup_lut gives the index back, so no two entries are the same (R59). -/
theorem alpha_injective {d e : Fin 85} (h : alpha d = alpha e) : d = e := by
  have hdigit : some d.val = some e.val := by rw [← digitAt_alpha d, h, digitAt_alpha]
  exact Fin.ext (Option.some.inj hdigit)

/-- R64's bit string: the eleven of its 96 indices that are not VALID. -/
theorem revValid_listing : ∀ k : Nat, k < 96 →
    (revValid k = false ↔ k ∈ [0x00, 0x02, 0x07, 0x0C, 0x1B, 0x3C, 0x3F, 0x40, 0x5C, 0x5E, 0x5F]) := by decide +kernel

/-- Settles O11: a byte alphabet_lut lacks is one that R64 lists as not VALID. -/
theorem alphabetEntriesDistinctPrintable : Obligations.AlphabetEntriesDistinctPrintable := by
  refine ⟨fun _ _ => alpha_injective, fun d => ?_, rfl, rfl, fun c hlow hhigh => ?_⟩
  · obtain ⟨hlow, hhigh⟩ := alpha_bounds d
    exact ⟨hlow, hhigh, Nat.testBit_lt_two_pow (by omega)⟩
  · have hlacks : (∀ d : Fin 85, alpha d ≠ c) ↔ revValid (c.toNat - 32) = false := by
      simp only [revValid_eq_false_iff, Nat.sub_add_cancel hlow, ne_eq, BitVec.toNat_inj]
    rw [hlacks, revValid_listing _ (by omega)]
    simp only [List.mem_cons, List.not_mem_nil, or_false, ← BitVec.toNat_inj, BitVec.toNat_ofNat, Nat.reducePow, Nat.reduceMod]
    omega

/-- Settles O13: every entry is above the offset and inside the smallest legal table. -/
theorem tablesInverseOnAlphabet : Obligations.TablesInverseOnAlphabet := by
  rintro cfg d ⟨hsize, -⟩
  obtain ⟨hlow, hhigh⟩ := alpha_bounds d
  refine ⟨?_, revEntry_of_alpha (by omega)⟩
  simp only [inRange, revOffset_val, Bool.and_eq_true, decide_eq_true_eq]
  omega

/-- Settles O14: the 96 entries are evaluated, and no byte of alphabet_lut lies behind them. -/
theorem reverseTableListing : Obligations.ReverseTableListing := by
  refine ⟨by decide +kernel, revValid_listing, fun k hk => revEntry_of_not_alpha fun d => ?_⟩
  have hhigh := (alpha_bounds d).2
  omega

/-! ### The words of the two lookups -/

theorem setWidth_zero_append {n k w : Nat} (lo : BitVec k) : (0#n ++ lo).setWidth w = lo.setWidth w := by
  refine BitVec.eq_of_toNat_eq ?_
  simp [BitVec.toNat_append]

/-- A command's word is its OP's pattern with the ARG set in it (R45). -/
theorem encode_eq_or (i : Instr) : encode i = (i.op ++ 0#28) ||| i.arg.setWidth 32 := by
  have harg : i.arg.setWidth 32 = 0#4 ++ i.arg := BitVec.setWidth_eq_append (by decide)
  rw [encode, harg, BitVec.or_append, BitVec.or_zero, BitVec.zero_or]

theorem encode_alphaLookup (idx : BitVec 7) : encode (.alphaLookup idx) = 0x30000000#32 ||| idx.setWidth 32 := by
  have hop : (0x3#4 ++ 0#28 : Word) = 0x30000000#32 := by decide
  rw [encode_eq_or, Instr.op, Instr.arg, setWidth_zero_append, hop]

theorem encode_revLookup (byte : Byte) : encode (.revLookup byte) = 0x40000000#32 ||| byte.setWidth 32 := by
  have hop : (0x4#4 ++ 0#28 : Word) = 0x40000000#32 := by decide
  rw [encode_eq_or, Instr.op, Instr.arg, setWidth_zero_append, hop]

theorem extractLsb'_argField (cmd : Word) {start len : Nat} (h : start + len ≤ 28) :
    (argField cmd).extractLsb' start len = cmd.extractLsb' start len :=
  BitVec.extractLsb'_extractLsb'_of_le h

/-! ### ALPHA_LOOKUP -/

/-- A success without output moves no stream: it writes the registers and the outcome, and nothing else (R24). -/
theorem finish_success_nil (op : BitVec 4) (result : Word) (s : State) :
    s.finish 0 (.success op result []) = { s with
      status := mkSTATUS kindOk 0#8 0#4 op, errInfo := 0#32, outCount := 0#32, result := result,
      active := none, history := .ok [] :: s.history } :=
  finish_zero_eq_retire _ _ rfl

theorem exec_alphaLookup_of_lt {idx : BitVec 7} (h : idx.toNat < 85) (s : State) :
    exec (.alphaLookup idx) s = .next (s.finish 0 (.success 0x3#4 (byteWord (alpha ⟨idx.toNat, h⟩)) [])) :=
  dif_pos h

theorem exec_alphaLookup_of_ge {idx : BitVec 7} (h : 85 ≤ idx.toNat) (s : State) :
    exec (.alphaLookup idx) s = .refused .noSuchAlphabetEntry :=
  dif_neg (Nat.not_lt.2 h)

/-- Settles O15: an IDX with an entry completes as a success without output, and one without is in R53's second case. -/
theorem alphaLookupReturnsTheEntry : Obligations.AlphaLookupReturnsTheEntry := by
  refine ⟨fun idx s => ⟨encode_alphaLookup idx, fun h => ?_, fun h => exec_alphaLookup_of_ge h s⟩, fun cmd hop hbad => ?_⟩
  · rw [exec_alphaLookup_of_lt h, finish_success_nil]
    rfl
  · rw [← extractLsb'_argField cmd (by decide), ← extractLsb'_argField cmd (by decide)] at hbad
    exact (illegalWordsDecodeToBad cmd).2 (.inr (.inl ⟨hop, hbad.symm⟩))

/-! ### REV_LOOKUP -/

theorem exec_revLookup (byte : Byte) (s : State) :
    exec (.revLookup byte) s = .next (s.finish 0 (.success 0x4#4 (revResult s.cfg byte) [])) := rfl

section RevResult
variable {cfg : Config} {byte : Byte}

theorem revResult_of_not_inRange (h : inRange cfg byte = false) : revResult cfg byte = 0#32 := by
  simp [revResult, h]

variable (h : inRange cfg byte = true)
include h

theorem revResult_of_inRange :
    revResult cfg byte = 0#22 ++ 1#1 ++ BitVec.ofBool (revValid (byte.toNat - 32)) ++ revDigit (byte.toNat - 32) := by
  simp [revResult, h]

theorem revResult_reserved : (revResult cfg byte).extractLsb' 10 22 = 0#22 := by
  rw [revResult_of_inRange h]
  iterate 2 rw [BitVec.extractLsb'_append_eq_of_le (by decide)]
  exact BitVec.extractLsb'_append_eq_left

theorem revResult_inRange : (revResult cfg byte).getLsbD 9 = true := by
  simp only [revResult_of_inRange h, BitVec.getLsbD_append]
  rfl

theorem revResult_valid : (revResult cfg byte).getLsbD 8 = revValid (byte.toNat - 32) := by
  simp only [revResult_of_inRange h, BitVec.getLsbD_append]
  exact BitVec.getLsbD_ofBool _ 0

theorem revResult_digit : (revResult cfg byte).extractLsb' 0 8 = revDigit (byte.toNat - 32) := by
  rw [revResult_of_inRange h]
  exact BitVec.extractLsb'_append_eq_right

end RevResult

/-- Settles O16: every byte completes as a success without output, whose RESULT has the table's two columns where in range. -/
theorem revLookupReportsTheTable : Obligations.RevLookupReportsTheTable := by
  refine ⟨fun byte s => ⟨encode_revLookup byte, revResult s.cfg byte, ?_, revResult_of_not_inRange, fun h => ?_⟩,
    fun cmd hop hbad => ?_⟩
  · rw [exec_revLookup, finish_success_nil]
    rfl
  · exact ⟨revResult_reserved h, revResult_inRange h, revResult_valid h, revResult_digit h⟩
  · rw [← extractLsb'_argField cmd (by decide)] at hbad
    exact (illegalWordsDecodeToBad cmd).2 (.inr (.inr ⟨hop, hbad⟩))

end Sys2Proof.Machine
end

section
/-! PROOFS. Family 41_encoder.md: the five digits of a chunk value and what they determine (R71, R73), the alphabet of the output (R72),
the chunks of a buffer (R76), and ENCODE of a length that is a multiple of 4 and of any other (R74, R75). -/

namespace Sys2Proof.Machine

/-! ### The digits of a chunk value -/

/-- Repeated division by 85 gives the base-85 representation, exact and with a first digit of at most 82, since 85^5 and even 83 * 85^4
exceed every chunk value (R71). -/
theorem encWord_digits (w : Word) : ∃ d0 d1 d2 d3 d4 : Fin 85,
    encWord w = [alpha d0, alpha d1, alpha d2, alpha d3, alpha d4] ∧
    w.toNat = exactValue d0 d1 d2 d3 d4 ∧ d0.val ≤ 82 := by
  have hlt : w.toNat < 2 ^ 32 := w.isLt
  refine ⟨_, _, _, _, _, rfl, ?_, ?_⟩
  · simp only [exactValue, digit]
    omega
  · simp only [digit]
    omega

/-- Settles O19: the digits of every value, and those of the largest one evaluated. -/
theorem digitsRepresentTheChunkExactly : Obligations.DigitsRepresentTheChunkExactly :=
  ⟨encWord_digits, by decide +kernel, by decide +kernel⟩

/-- Settles O20: the characters determine the digits, and these the value. -/
theorem encoderIsInjective : Obligations.EncoderIsInjective := by
  intro v w h
  obtain ⟨d0, d1, d2, d3, d4, hv, hvalue, -⟩ := encWord_digits v
  obtain ⟨e0, e1, e2, e3, e4, hw, hvalue', -⟩ := encWord_digits w
  rw [hv, hw] at h
  simp only [List.cons.injEq] at h
  obtain ⟨h0, h1, h2, h3, h4, -⟩ := h
  refine BitVec.eq_of_toNat_eq ?_
  rw [hvalue, hvalue', alpha_injective h0, alpha_injective h1, alpha_injective h2, alpha_injective h3, alpha_injective h4]

/-! ### The chunks of a buffer -/

/-- The buffers on which the chunk loop stops, in the form `encodeBytes.induct` gives, are those without a whole chunk. -/
theorem length_lt_of_no_chunk {bytes : List Byte}
    (h : ∀ b0 b1 b2 b3 rest, bytes = b0 :: b1 :: b2 :: b3 :: rest → False) : bytes.length < 4 := by
  match bytes, h with
  | [], _ | [_], _ | [_, _], _ | [_, _, _], _ => simp
  | b0 :: b1 :: b2 :: b3 :: rest, h => exact (h b0 b1 b2 b3 rest rfl).elim

/-- Output chunk `k` is made of input chunk `k` alone (R76). -/
theorem encodeBytes_chunk (raw : List Byte) (k : Nat) (hk : k < raw.length / 4) :
    ((encodeBytes raw).drop (5 * k)).take 5 =
      encChunk (raw.getD (4 * k) 0#8) (raw.getD (4 * k + 1) 0#8) (raw.getD (4 * k + 2) 0#8) (raw.getD (4 * k + 3) 0#8) := by
  induction raw using encodeBytes.induct generalizing k with
  | case1 b0 b1 b2 b3 rest ih =>
    have hfive : (encChunk b0 b1 b2 b3).length = 5 := encWord_length _
    cases k with
    | zero => exact List.take_left' hfive
    | succ k =>
      have hrest : k < rest.length / 4 := by simp only [List.length_cons] at hk; omega
      rw [encodeBytes, Nat.mul_succ, Nat.add_comm (5 * k), ← List.drop_drop, List.drop_left' hfive, ih k hrest]
      rfl
  | case2 raw hshort =>
    have hlt := length_lt_of_no_chunk hshort
    omega

theorem encodeBytes_append {a : List Byte} (ha : a.length % 4 = 0) (b : List Byte) :
    encodeBytes (a ++ b) = encodeBytes a ++ encodeBytes b := by
  induction a using encodeBytes.induct with
  | case1 b0 b1 b2 b3 rest ih =>
    have hrest : rest.length % 4 = 0 := by simp only [List.length_cons] at ha; omega
    simp only [List.cons_append, encodeBytes, ih hrest, List.append_assoc]
  | case2 a hshort =>
    have hlt := length_lt_of_no_chunk hshort
    obtain rfl : a = [] := List.length_eq_zero_iff.1 (by omega)
    rfl

/-- Settles O24: each fact by the chunks of the (first) buffer. -/
theorem encodeOfConcatenation : Obligations.EncodeOfConcatenation := by
  refine ⟨fun raw hmod => ?_, encodeBytes_chunk, fun a b ha _ => encodeBytes_append ha b⟩
  rw [encodeBytes_length]
  omega

/-! ### The alphabet of the output -/

theorem exists_alpha_of_mem_encWord {w : Word} {c : Byte} (h : c ∈ encWord w) : ∃ d : Fin 85, c = alpha d := by
  obtain ⟨d, -, rfl⟩ := List.mem_map.1 h
  exact ⟨d, rfl⟩

theorem exists_alpha_of_mem_encodeBytes {bytes : List Byte} {c : Byte} (h : c ∈ encodeBytes bytes) :
    ∃ d : Fin 85, c = alpha d := by
  induction bytes using encodeBytes.induct with
  | case1 b0 b1 b2 b3 rest ih =>
    rcases List.mem_append.1 h with hchunk | hrest
    · exact exists_alpha_of_mem_encWord hchunk
    · exact ih hrest
  | case2 bytes hshort =>
    rw [encodeBytes.eq_2 _ hshort] at h
    exact absurd h List.not_mem_nil

/-! ### What ENCODE completes with -/

theorem encodeCompletion_of_mod {len : BitVec 28} (h : len.toNat % 4 = 0) (bytes : List Byte) :
    encodeCompletion len bytes = .success 0x1#4 0#32 (encodeBytes bytes) :=
  if_neg (not_not.2 h)

theorem encodeCompletion_of_not_mod {len : BitVec 28} (h : len.toNat % 4 ≠ 0) (bytes : List Byte) :
    encodeCompletion len bytes = lengthError 4#4 0x1#4 len :=
  if_pos h

theorem exists_alpha_of_mem_encodeCompletion {len : BitVec 28} {bytes : List Byte} {c : Byte}
    (h : c ∈ (encodeCompletion len bytes).out) : ∃ d : Fin 85, c = alpha d := by
  by_cases hmod : len.toNat % 4 = 0
  · rw [encodeCompletion_of_mod hmod] at h
    exact exists_alpha_of_mem_encodeBytes h
  · rw [encodeCompletion_of_not_mod hmod] at h
    exact absurd h List.not_mem_nil

/-- Settles O23: an ENCODE puts its completion's output on the stream, or goes into progress and puts out nothing yet. -/
theorem encodeOutputStaysInTheAlphabet : Obligations.EncodeOutputStaysInTheAlphabet := by
  refine ⟨fun _ _ _ _ _ => exists_alpha_of_mem_encWord, fun len s t h => ?_⟩
  rcases transact_cases h with ⟨-, -, rfl⟩ | ⟨-, rfl⟩
  · exact ⟨_, rfl, fun _ => exists_alpha_of_mem_encodeCompletion⟩
  · exact ⟨[], (List.append_nil _).symm, fun _ hc => absurd hc List.not_mem_nil⟩

/-! ### The command -/

theorem encode_encode (len : BitVec 28) : encode (.encode len) = 0x10000000#32 ||| len.setWidth 32 := by
  have hop : (0x1#4 ++ 0#28 : Word) = 0x10000000#32 := by decide
  rw [encode_eq_or, Instr.op, Instr.arg, hop]

/-- ENCODE where nothing makes it wait (R31, R120, R122). -/
theorem exec_encode {len : BitVec 28} {s : State} (hn : len.toNat ≤ s.input.length)
    (ho : s.outReady = true ∨ (encodeCompletion len (s.input.take len.toNat)).out = []) :
    exec (.encode len) s = .next (s.finish len.toNat (encodeCompletion len (s.input.take len.toNat))) :=
  transact_finish hn ho

/-- The bytes a command takes from the stream are those it finds at its head (R35). -/
theorem getD_take_input {s : State} {n i : Nat} (h : i < n) : (s.input.take n).getD i 0#8 = s.byteIn i := by
  rw [State.byteIn, List.getD_eq_getElem?_getD, List.getD_eq_getElem?_getD, List.getElem?_take_of_lt h]

/-- Settles O21: the command finishes with the success whose output is `encodeBytes` of its LEN bytes. -/
theorem encodeWritesFiveCharactersPerChunk : Obligations.EncodeWritesFiveCharactersPerChunk := by
  refine ⟨encode_encode, fun len s hmod hn hready => ?_⟩
  have ho : s.outReady = true ∨ (encodeCompletion len (s.input.take len.toNat)).out = [] :=
    hready.imp_right fun hzero => by rw [hzero]; rfl
  have htake : (s.input.take len.toNat).length = len.toNat := List.length_take_of_le hn
  have hlen : (encodeBytes (s.input.take len.toNat)).length = 5 * (len.toNat / 4) := by rw [encodeBytes_length, htake]
  refine ⟨encodeBytes (s.input.take len.toNat), ?_, hlen, fun k hk => ?_⟩
  · rw [exec_encode hn ho, encodeCompletion_of_mod hmod, ← hlen]
    rfl
  · rw [encodeBytes_chunk _ k (htake.symm ▸ hk)]
    iterate 4 rw [getD_take_input (by omega)]

/-- A LengthError consumes the input and puts nothing out: it writes the registers and the outcome, and nothing else (R75, R86). -/
theorem finish_lengthError (n : Nat) (mult op : BitVec 4) (len : BitVec 28) (s : State) :
    s.finish n (lengthError mult op len) = { s with
      status := mkSTATUS kindLength 0#8 mult op, errInfo := lenWord len, outCount := 0#32, result := 0#32,
      input := s.input.drop n, active := none, history := .lengthError mult.toNat len.toNat :: s.history } := by
  rw [State.finish, lengthError_out, List.append_nil]
  rfl

/-- Settles O22: the command has no output to wait for, and finishes with the LengthError. -/
theorem encodeReportsLengthError : Obligations.EncodeReportsLengthError := by
  intro len s hmod hn
  rw [exec_encode hn (.inr (by rw [encodeCompletion_of_not_mod hmod, lengthError_out])), encodeCompletion_of_not_mod hmod,
    finish_lengthError]
  rfl

end Sys2Proof.Machine
end

section
/-! PROOFS. Family 42_decoder.md: the digit of a character (R78, R79), the chunk accumulator (R80, R81) and its first INVALID
character (R83), the chunks of a text (R87, R88), both directions of the round trip (R82, R89), and DECODE of a length that is a
multiple of 5 and of any other (R85, R86, R87). -/

namespace Sys2Proof.Machine

/-! ### The digit of a character -/

section DecChar
variable {cfg : Config} {c : Byte}

theorem inRange_iff : inRange cfg c = true ↔ 32 ≤ c.toNat ∧ c.toNat < 32 + cfg.revSize := by
  simp only [inRange, revOffset_val, Bool.and_eq_true, decide_eq_true_eq]
  omega

theorem decChar_of_not_inRange (h : ¬ inRange cfg c = true) : decChar cfg c = none :=
  if_pos (Bool.not_eq_true _ ▸ h)

theorem decChar_of_inRange (h : inRange cfg c = true) :
    decChar cfg c = if cfg.strictAlphabet = true ∧ revValid (c.toNat - 32) = false then none
      else some (revDigit (c.toNat - 32)) := by
  simp only [decChar, h, revOffset_val]
  rfl

/-- reverse_lookup_lut gives the digit of a character of the alphabet in either setting (R65, R78). -/
theorem decChar_alpha (hlegal : cfg.Legal) (d : Fin 85) : decChar cfg (alpha d) = some (BitVec.ofNat 8 d.val) := by
  obtain ⟨hrange, hdigit, hvalid⟩ := tablesInverseOnAlphabet cfg d hlegal
  have hfits : d.val % 2 ^ 8 = d.val := Nat.mod_eq_of_lt (by omega)
  rw [decChar_of_inRange hrange, hvalid, if_neg (by simp)]
  exact congrArg some (BitVec.eq_of_toNat_eq (hdigit.trans hfits.symm))

end DecChar

/-- Settles O25: in range, the character's entry of reverse_lookup_lut is the one of its digit or the sentinel. -/
theorem decCharFollowsStrictAlphabet : Obligations.DecCharFollowsStrictAlphabet := by
  intro cfg c hlegal
  refine ⟨fun hout => decChar_of_not_inRange fun h => ?_, ?_, fun hlow hhigh hlacks => ?_⟩
  · obtain ⟨hlow, hhigh⟩ := inRange_iff.1 h
    omega
  · rintro d rfl
    exact decChar_alpha hlegal d
  · have hentry : ∀ d : Fin 85, (alpha d).toNat ≠ c.toNat - 32 + 32 := fun d hd =>
      hlacks d (BitVec.eq_of_toNat_eq (by rw [hd, Nat.sub_add_cancel hlow]))
    obtain ⟨hdigit, hvalid⟩ := revEntry_of_not_alpha hentry
    rw [decChar_of_inRange (inRange_iff.2 ⟨hlow, hhigh⟩), hdigit, hvalid]
    simp

/-! ### The chunk accumulator -/

/-- A step on a wrapped value is the wrapped step on the value itself (R81). -/
theorem accumulate_ofNat (v : Nat) (r : Byte) : accumulate (BitVec.ofNat 32 v) r = BitVec.ofNat 32 (v * 85 + r.toNat) := by
  refine BitVec.eq_of_toNat_eq ?_
  simp only [accumulate, wrap32, BitVec.toNat_ofNat]
  omega

theorem decChunk_of_digits {cfg : Config} {c0 c1 c2 c3 c4 r0 r1 r2 r3 r4 : Byte} (h0 : decChar cfg c0 = some r0)
    (h1 : decChar cfg c1 = some r1) (h2 : decChar cfg c2 = some r2) (h3 : decChar cfg c3 = some r3)
    (h4 : decChar cfg c4 = some r4) :
    decChunk cfg c0 c1 c2 c3 c4 =
      .word (BitVec.ofNat 32 (exactValue r0.toNat r1.toNat r2.toNat r3.toNat r4.toNat)) := by
  simp only [decChunk, decChunkFrom, h0, h1, h2, h3, h4, accumulate_ofNat, exactValue]
  congr 2
  ring

theorem decChunk_alpha {cfg : Config} (hlegal : cfg.Legal) (d0 d1 d2 d3 d4 : Fin 85) :
    decChunk cfg (alpha d0) (alpha d1) (alpha d2) (alpha d3) (alpha d4) =
      .word (BitVec.ofNat 32 (exactValue d0 d1 d2 d3 d4)) := by
  have hfits (d : Fin 85) : (BitVec.ofNat 8 d.val).toNat = d.val := Nat.mod_eq_of_lt (by omega)
  rw [decChunk_of_digits (decChar_alpha hlegal d0) (decChar_alpha hlegal d1) (decChar_alpha hlegal d2)
    (decChar_alpha hlegal d3) (decChar_alpha hlegal d4)]
  simp only [hfits]

/-- The digits 82, 23, 54, 12, 0 have the exact value 2^32 - 1, and digits are ordered as their values are (R81). -/
theorem exactValue_overflows_iff (d0 d1 d2 d3 d4 : Fin 85) :
    2 ^ 32 ≤ exactValue d0 d1 d2 d3 d4 ↔ [82, 23, 54, 12, 0] < [d0.val, d1.val, d2.val, d3.val, d4.val] := by
  simp only [exactValue, List.cons_lt_cons_iff, List.lt_irrefl, and_false, or_false]
  omega

/-- Settles O26: each clause in turn; the characters an encoder gives are those of its chunk value's own digits. -/
theorem accumulatorWrapsModulo32Bits : Obligations.AccumulatorWrapsModulo32Bits := by
  refine ⟨fun _ _ _ _ _ _ _ _ _ _ _ => decChunk_of_digits, exactValue_overflows_iff, fun cfg hlegal => ?_,
    fun w d0 d1 d2 d3 d4 h => ?_⟩
  · exact ⟨decChunk_alpha hlegal 82 23 54 12 1, decChunk_alpha hlegal 84 84 84 84 84⟩
  · obtain ⟨e0, e1, e2, e3, e4, hw, hvalue, -⟩ := encWord_digits w
    rw [hw] at h
    simp only [List.cons.injEq] at h
    obtain ⟨h0, h1, h2, h3, h4, -⟩ := h
    rw [← alpha_injective h0, ← alpha_injective h1, ← alpha_injective h2, ← alpha_injective h3, ← alpha_injective h4,
      ← hvalue]
    exact w.isLt

/-! ### Both directions of the round trip -/

/-- A chunk of an encoder's text gives its word back: nothing wraps (R71, R89). -/
theorem decodeBytes_encWord_append {cfg : Config} (hlegal : cfg.Legal) (pos : Nat) (w : Word) (rest : List Byte) :
    decodeBytes cfg pos (encWord w ++ rest) =
      { out := bytesOfWord w ++ (decodeBytes cfg (pos + 5) rest).out, bad := (decodeBytes cfg (pos + 5) rest).bad } := by
  obtain ⟨d0, d1, d2, d3, d4, hw, hvalue, -⟩ := encWord_digits w
  have hchunk := decChunk_alpha hlegal d0 d1 d2 d3 d4
  rw [← hvalue, BitVec.ofNat_toNat, BitVec.setWidth_eq] at hchunk
  rw [hw]
  simp only [List.cons_append, List.nil_append, decodeBytes, hchunk]

/-- DECODE undoes ENCODE (R89). -/
theorem decodeBytes_encodeBytes {cfg : Config} (hlegal : cfg.Legal) {raw : List Byte} (hmod : raw.length % 4 = 0) (pos : Nat) :
    decodeBytes cfg pos (encodeBytes raw) = { out := raw, bad := none } := by
  induction raw using encodeBytes.induct generalizing pos with
  | case1 b0 b1 b2 b3 rest ih =>
    have hrest : rest.length % 4 = 0 := by simp only [List.length_cons] at hmod; omega
    rw [encodeBytes, encChunk, decodeBytes_encWord_append hlegal, bytesOfWord_wordOfBytes, ih hrest]
    rfl
  | case2 raw hshort =>
    have hlt := length_lt_of_no_chunk hshort
    obtain rfl : raw = [] := List.length_eq_zero_iff.1 (by omega)
    rfl

/-- Five digits whose exact value 32 bits hold are those of that value (R71, R82). -/
theorem encWord_exactValue (d0 d1 d2 d3 d4 : Fin 85) (h : exactValue d0 d1 d2 d3 d4 < 2 ^ 32) :
    encWord (BitVec.ofNat 32 (exactValue d0 d1 d2 d3 d4)) = [alpha d0, alpha d1, alpha d2, alpha d3, alpha d4] := by
  have hdigits : encDigits (exactValue d0 d1 d2 d3 d4) = [d0, d1, d2, d3, d4] := by
    simp only [encDigits, digit, exactValue, List.cons.injEq, Fin.ext_iff, and_true]
    omega
  rw [encWord, BitVec.toNat_ofNat, Nat.mod_eq_of_lt h, hdigits]
  rfl

theorem encodeBytes_bytesOfWord_append (w : Word) (rest : List Byte) :
    encodeBytes (bytesOfWord w ++ rest) = encWord w ++ encodeBytes rest := by
  simp only [bytesOfWord, List.cons_append, List.nil_append, encodeBytes, encChunk, wordOfBytes_bytes]

/-- The exact value of the `k`-th chunk of digits. -/
abbrev chunkValue (ds : List (Fin 85)) (k : Nat) : Nat :=
  exactValue (ds.getD (5 * k) 0).val (ds.getD (5 * k + 1) 0).val (ds.getD (5 * k + 2) 0).val (ds.getD (5 * k + 3) 0).val
    (ds.getD (5 * k + 4) 0).val

/-- A text of the alphabet whose chunks do not overflow is an encoder's (R82). -/
theorem exists_encodeBytes_eq : ∀ ds : List (Fin 85), ds.length % 5 = 0 →
    (∀ k, k < ds.length / 5 → chunkValue ds k < 2 ^ 32) → ∃ raw : List Byte, raw.length % 4 = 0 ∧ encodeBytes raw = ds.map alpha
  | [], _, _ => ⟨[], rfl, rfl⟩
  | d0 :: d1 :: d2 :: d3 :: d4 :: rest, hmod, hvalue => by
    simp only [List.length_cons] at hmod hvalue
    have hrest (k : Nat) (hk : k < rest.length / 5) : chunkValue rest k < 2 ^ 32 := hvalue (k + 1) (by omega)
    obtain ⟨raw, hraw, htext⟩ := exists_encodeBytes_eq rest (by omega) hrest
    refine ⟨bytesOfWord (BitVec.ofNat 32 (exactValue d0 d1 d2 d3 d4)) ++ raw, ?_, ?_⟩
    · rw [List.length_append, bytesOfWord_length]
      omega
    · rw [encodeBytes_bytesOfWord_append, encWord_exactValue d0 d1 d2 d3 d4 (hvalue 0 (by omega)), htext]
      rfl
  | [_], hmod, _ | [_, _], hmod, _ | [_, _, _], hmod, _ | [_, _, _, _], hmod, _ => absurd hmod (by simp)

/-- Settles O32: the text is the encoding of some buffer, which is what decoding it gives. -/
theorem encodeOfDecodeGivesTheTextBack : Obligations.EncodeOfDecodeGivesTheTextBack := by
  intro cfg ds hlegal hmod hvalue
  obtain ⟨raw, hraw, htext⟩ := exists_encodeBytes_eq ds hmod hvalue
  rw [← htext, decodeBytes_encodeBytes hlegal hraw]
  exact ⟨rfl, rfl⟩

/-! ### The first INVALID character of a chunk -/

/-- None of the first `n` characters is INVALID. -/
def ValidUpTo (cfg : Config) (chars : List Byte) (n : Nat) : Prop :=
  ∀ q, q < n → decChar cfg (chars.getD q 0#8) ≠ none

section Valid
variable {cfg : Config}

theorem validUpTo_zero (chars : List Byte) : ValidUpTo cfg chars 0 := fun _ hq => absurd hq (Nat.not_lt_zero _)

theorem validUpTo_succ_iff {c : Byte} {cs : List Byte} {n : Nat} :
    ValidUpTo cfg (c :: cs) (n + 1) ↔ decChar cfg c ≠ none ∧ ValidUpTo cfg cs n := by
  constructor
  · exact fun h => ⟨h 0 (Nat.succ_pos n), fun q hq => h (q + 1) (Nat.succ_lt_succ hq)⟩
  · rintro ⟨hc, hcs⟩ (_ | q) hq
    · exact hc
    · exact hcs q (Nat.lt_of_succ_lt_succ hq)

theorem decChunkFrom_word_iff {cs : List Byte} {p : Nat} {acc : Word} :
    (∃ w, decChunkFrom cfg p acc cs = .word w) ↔ ValidUpTo cfg cs cs.length := by
  induction cs generalizing p acc with
  | nil => exact ⟨fun _ => validUpTo_zero [], fun _ => ⟨acc, rfl⟩⟩
  | cons c cs ih =>
    rw [List.length_cons, validUpTo_succ_iff, decChunkFrom]
    cases hc : decChar cfg c with
    | none => simp
    | some r => simpa using ih

/-- The characters before the first INVALID one only move the accumulator, and those after it are not examined (R83). -/
theorem decChunkFrom_first_invalid {cs : List Byte} {i : Nat} (hi : i < cs.length)
    (hbad : decChar cfg (cs.getD i 0#8) = none) (hbefore : ValidUpTo cfg cs i) (p : Nat) (acc : Word) :
    decChunkFrom cfg p acc cs = .bad (cs.getD i 0#8) (p + i) := by
  induction cs generalizing i p acc with
  | nil => exact absurd hi (Nat.not_lt_zero i)
  | cons c cs ih =>
    cases i with
    | zero =>
      rw [List.getD_cons_zero] at hbad ⊢
      rw [decChunkFrom, hbad]
      rfl
    | succ i =>
      obtain ⟨hc, hcs⟩ := validUpTo_succ_iff.1 hbefore
      obtain ⟨r, hr⟩ := Option.ne_none_iff_exists'.1 hc
      have hpos : p + (i + 1) = p + 1 + i := by omega
      rw [decChunkFrom, hr, hpos]
      exact ih (Nat.lt_of_succ_lt_succ hi) hbad hcs (p + 1) (accumulate acc r)

end Valid

/-- Settles O27: a chunk is the loop from position 0 over its five characters. -/
theorem chunkReportsFirstInvalidCharacter : Obligations.ChunkReportsFirstInvalidCharacter := by
  refine fun cfg c0 c1 c2 c3 c4 => ⟨decChunkFrom_word_iff, fun p hp hbad hbefore => ?_⟩
  have h := decChunkFrom_first_invalid (cs := [c0, c1, c2, c3, c4]) hp hbad hbefore 0 0#32
  rwa [Nat.zero_add] at h

/-! ### The chunks of a text -/

section Chunks
variable {cfg : Config}

/-- The texts on which the chunk loop stops, in the form `decodeBytes.induct` gives, are those without a whole chunk. -/
theorem length_lt_of_no_text_chunk {chars : List Byte}
    (h : ∀ c0 c1 c2 c3 c4 rest, chars = c0 :: c1 :: c2 :: c3 :: c4 :: rest → False) : chars.length < 5 := by
  match chars, h with
  | [], _ | [_], _ | [_, _], _ | [_, _, _], _ | [_, _, _, _], _ => simp
  | c0 :: c1 :: c2 :: c3 :: c4 :: rest, h => exact (h c0 c1 c2 c3 c4 rest rfl).elim

/-- A text is valid up to a place behind its first chunk where that chunk gives a word and the rest is valid up to there. -/
theorem validUpTo_chunk_iff {c0 c1 c2 c3 c4 : Byte} {rest : List Byte} {n : Nat} :
    ValidUpTo cfg (c0 :: c1 :: c2 :: c3 :: c4 :: rest) (n + 5) ↔
      (∃ w, decChunk cfg c0 c1 c2 c3 c4 = .word w) ∧ ValidUpTo cfg rest n := by
  rw [decChunk, decChunkFrom_word_iff]
  simp only [List.length_cons, List.length_nil, validUpTo_succ_iff, validUpTo_zero, and_true, and_assoc]

/-- A text decodes where none of its characters is INVALID (R85, R87). -/
theorem decodeBytes_bad_eq_none_iff {chars : List Byte} (hmod : chars.length % 5 = 0) (pos : Nat) :
    (decodeBytes cfg pos chars).bad = none ↔ ValidUpTo cfg chars chars.length := by
  induction pos, chars using decodeBytes.induct (cfg := cfg) with
  | case1 pos c0 c1 c2 c3 c4 rest b p hb =>
    simp only [List.length_cons, validUpTo_chunk_iff, decodeBytes, hb]
    simp
  | case2 pos c0 c1 c2 c3 c4 rest w hw ih =>
    have hrest : rest.length % 5 = 0 := by simp only [List.length_cons] at hmod; omega
    simp only [List.length_cons, validUpTo_chunk_iff, decodeBytes, hw, ih hrest]
    simp
  | case3 chars pos hshort =>
    have hlt := length_lt_of_no_text_chunk hshort
    obtain rfl : chars = [] := List.length_eq_zero_iff.1 (by omega)
    exact ⟨fun _ => validUpTo_zero [], fun _ => rfl⟩

theorem decodeBytes_out_length {chars : List Byte} {pos : Nat} (h : (decodeBytes cfg pos chars).bad = none) :
    (decodeBytes cfg pos chars).out.length = 4 * (chars.length / 5) := by
  induction pos, chars using decodeBytes.induct (cfg := cfg) with
  | case1 pos c0 c1 c2 c3 c4 rest b p hb => simp [decodeBytes, hb] at h
  | case2 pos c0 c1 c2 c3 c4 rest w hw ih =>
    simp only [decodeBytes, hw] at h
    simp only [decodeBytes, hw, List.length_append, bytesOfWord_length, List.length_cons, ih h]
    omega
  | case3 chars pos hshort =>
    have hlt := length_lt_of_no_text_chunk hshort
    rw [decodeBytes.eq_2 _ _ _ hshort, List.length_nil]
    omega

/-- Output chunk `k` is made of input chunk `k` alone, if no chunk up to it fails (R87, R88). -/
theorem decodeBytes_chunk {chars : List Byte} {k : Nat} (hk : 5 * k + 5 ≤ chars.length)
    (hvalid : ValidUpTo cfg chars (5 * k + 5)) (pos : Nat) : ∃ w : Word,
      decChunk cfg (chars.getD (5 * k) 0#8) (chars.getD (5 * k + 1) 0#8) (chars.getD (5 * k + 2) 0#8)
        (chars.getD (5 * k + 3) 0#8) (chars.getD (5 * k + 4) 0#8) = .word w ∧
      ((decodeBytes cfg pos chars).out.drop (4 * k)).take 4 = bytesOfWord w := by
  induction pos, chars using decodeBytes.induct (cfg := cfg) generalizing k with
  | case1 pos c0 c1 c2 c3 c4 rest b p hb =>
    obtain ⟨⟨w, hw⟩, -⟩ := validUpTo_chunk_iff.1 hvalid
    cases hb.symm.trans hw
  | case2 pos c0 c1 c2 c3 c4 rest w hw ih =>
    simp only [decodeBytes, hw]
    cases k with
    | zero => exact ⟨w, hw, List.take_left' (bytesOfWord_length w)⟩
    | succ k =>
      have hrest : 5 * k + 5 ≤ rest.length := by simp only [List.length_cons] at hk; omega
      obtain ⟨v, hv, hout⟩ := ih hrest (validUpTo_chunk_iff.1 hvalid).2
      refine ⟨v, hv, ?_⟩
      rw [Nat.mul_succ, Nat.add_comm (4 * k), ← List.drop_drop, List.drop_left' (bytesOfWord_length w), hout]
  | case3 chars pos hshort =>
    have hlt := length_lt_of_no_text_chunk hshort
    omega

theorem decChunk_first_invalid {c0 c1 c2 c3 c4 : Byte} {rest : List Byte} {i : Nat} (hi : i < 5)
    (hbad : decChar cfg ((c0 :: c1 :: c2 :: c3 :: c4 :: rest).getD i 0#8) = none)
    (hbefore : ValidUpTo cfg (c0 :: c1 :: c2 :: c3 :: c4 :: rest) i) :
    decChunk cfg c0 c1 c2 c3 c4 = .bad ((c0 :: c1 :: c2 :: c3 :: c4 :: rest).getD i 0#8) i := by
  have hget (q : Nat) (hq : q < 5) :
      (c0 :: c1 :: c2 :: c3 :: c4 :: rest).getD q 0#8 = [c0, c1, c2, c3, c4].getD q 0#8 :=
    List.getD_append [c0, c1, c2, c3, c4] rest _ q hq
  rw [hget i hi] at hbad ⊢
  refine (chunkReportsFirstInvalidCharacter cfg c0 c1 c2 c3 c4).2 i hi hbad fun q hq => ?_
  rw [← hget q (hq.trans hi)]
  exact hbefore q hq

/-- The first INVALID character of a text is what the loop reports, and its chunk and those behind it give no output (R87). -/
theorem decodeBytes_first_invalid {chars : List Byte} {i : Nat} (hmod : chars.length % 5 = 0) (hi : i < chars.length)
    (hbad : decChar cfg (chars.getD i 0#8) = none) (hbefore : ValidUpTo cfg chars i) (pos : Nat) :
    (decodeBytes cfg pos chars).bad = some (chars.getD i 0#8, pos + i) ∧
      (decodeBytes cfg pos chars).out.length = 4 * (i / 5) := by
  induction pos, chars using decodeBytes.induct (cfg := cfg) generalizing i with
  | case1 pos c0 c1 c2 c3 c4 rest b p hb =>
    have hlt : i < 5 := by
      by_contra hge
      obtain ⟨j, rfl⟩ := Nat.exists_eq_add_of_le' (Nat.not_lt.1 hge)
      obtain ⟨⟨w, hw⟩, -⟩ := validUpTo_chunk_iff.1 hbefore
      cases hb.symm.trans hw
    obtain ⟨rfl, rfl⟩ := ChunkResult.bad.inj (hb.symm.trans (decChunk_first_invalid hlt hbad hbefore))
    simp [decodeBytes, hb, Nat.div_eq_of_lt hlt]
  | case2 pos c0 c1 c2 c3 c4 rest w hw ih =>
    have hge : 5 ≤ i := by
      by_contra hlt
      cases hw.symm.trans (decChunk_first_invalid (Nat.not_le.1 hlt) hbad hbefore)
    obtain ⟨j, rfl⟩ := Nat.exists_eq_add_of_le' hge
    simp only [List.length_cons] at hmod hi
    obtain ⟨hreport, hout⟩ := ih (by omega) (by omega) hbad (validUpTo_chunk_iff.1 hbefore).2
    simp only [decodeBytes, hw, List.length_append, bytesOfWord_length, hreport, hout]
    exact ⟨by rw [Nat.add_assoc, Nat.add_comm 5]; rfl, by omega⟩
  | case3 chars pos hshort =>
    have hlt := length_lt_of_no_text_chunk hshort
    omega

/-- Chunks do not look at each other: a text that decodes leaves the loop to the text behind it (R88). -/
theorem decodeBytes_append {a : List Byte} (hmod : a.length % 5 = 0) {pos : Nat} (ha : (decodeBytes cfg pos a).bad = none)
    (b : List Byte) :
    decodeBytes cfg pos (a ++ b) =
      { out := (decodeBytes cfg pos a).out ++ (decodeBytes cfg (pos + a.length) b).out
        bad := (decodeBytes cfg (pos + a.length) b).bad } := by
  induction pos, a using decodeBytes.induct (cfg := cfg) with
  | case1 pos c0 c1 c2 c3 c4 rest c p hb => simp [decodeBytes, hb] at ha
  | case2 pos c0 c1 c2 c3 c4 rest w hw ih =>
    have hrest : rest.length % 5 = 0 := by simp only [List.length_cons] at hmod; omega
    simp only [decodeBytes, hw] at ha
    have hpos : pos + 5 + rest.length = pos + (rest.length + 1 + 1 + 1 + 1 + 1) := by omega
    simp only [List.cons_append, List.length_cons, decodeBytes, hw, ih hrest ha, List.append_assoc, hpos]
  | case3 a pos hshort =>
    have hlt := length_lt_of_no_text_chunk hshort
    obtain rfl : a = [] := List.length_eq_zero_iff.1 (by omega)
    rfl

/-- The position a text is decoded at shows in the report of an INVALID character alone (R85). -/
theorem decodeBytes_out_pos (p q : Nat) (chars : List Byte) :
    (decodeBytes cfg p chars).out = (decodeBytes cfg q chars).out := by
  induction p, chars using decodeBytes.induct (cfg := cfg) generalizing q with
  | case1 p c0 c1 c2 c3 c4 rest c k hb => simp only [decodeBytes, hb]
  | case2 p c0 c1 c2 c3 c4 rest w hw ih => simp only [decodeBytes, hw, ih (q + 5)]
  | case3 chars p hshort => rw [decodeBytes.eq_2 _ _ _ hshort, decodeBytes.eq_2 _ _ _ hshort]

end Chunks

/-- Settles O31: all characters of a text that decodes are valid, and so is each of its chunks. -/
theorem decodeOfConcatenation : Obligations.DecodeOfConcatenation := by
  refine ⟨fun cfg a hmod hgood => ⟨?_, fun k hk => ?_⟩, fun cfg a b hmod hmod' ha hb => ?_⟩
  · rw [decodeBytes_out_length hgood]
    omega
  · have hvalid := (decodeBytes_bad_eq_none_iff hmod 0).1 hgood
    exact decodeBytes_chunk (by omega) (fun q hq => hvalid q (by omega)) 0
  · rw [decodeBytes_append hmod ha]
    exact ⟨(decodeBytes_bad_eq_none_iff hmod' _).2 ((decodeBytes_bad_eq_none_iff hmod' 0).1 hb),
      congrArg _ (decodeBytes_out_pos _ 0 b)⟩

/-! ### What DECODE completes with -/

theorem decodeCompletion_of_mod {cfg : Config} {len : BitVec 28} {chars : List Byte} (h : len.toNat % 5 = 0) :
    decodeCompletion cfg len chars = decodeEnd (decodeBytes cfg 0 chars).out (decodeBytes cfg 0 chars).bad :=
  if_neg (not_not.2 h)

theorem decodeCompletion_of_not_mod {cfg : Config} {len : BitVec 28} {chars : List Byte} (h : len.toNat % 5 ≠ 0) :
    decodeCompletion cfg len chars = lengthError 5#4 0x2#4 len :=
  if_pos h

/-! ### The command -/

theorem encode_decode (len : BitVec 28) : encode (.decode len) = 0x20000000#32 ||| len.setWidth 32 := by
  have hop : (0x2#4 ++ 0#28 : Word) = 0x20000000#32 := by decide
  rw [encode_eq_or, Instr.op, Instr.arg, hop]

section Exec
variable {len : BitVec 28} {s : State}

/-- The characters of a command are valid up to a place where those at the head of the stream are. -/
theorem validUpTo_take_input {n : Nat} (hle : n ≤ len.toNat) (h : ∀ q, q < n → decChar s.cfg (s.byteIn q) ≠ none) :
    ValidUpTo s.cfg (s.input.take len.toNat) n := fun q hq => by
  rw [getD_take_input (hq.trans_le hle)]
  exact h q hq

variable (hn : len.toNat ≤ s.input.length)
include hn

/-- DECODE where nothing makes it wait (R31, R120, R122). -/
theorem exec_decode (ho : s.outReady = true ∨ (decodeCompletion s.cfg len (s.input.take len.toNat)).out = []) :
    exec (.decode len) s = .next (s.finish len.toNat (decodeCompletion s.cfg len (s.input.take len.toNat))) :=
  transact_finish hn ho

/-- What a command writes for the chunks before its first INVALID character (R85, R87). -/
theorem decodeBytes_take_input_chunk {n k : Nat} (hle : n ≤ len.toNat)
    (h : ∀ q, q < n → decChar s.cfg (s.byteIn q) ≠ none) (hk : k < n / 5) : ∃ w : Word,
      decChunk s.cfg (s.byteIn (5 * k)) (s.byteIn (5 * k + 1)) (s.byteIn (5 * k + 2)) (s.byteIn (5 * k + 3))
        (s.byteIn (5 * k + 4)) = .word w ∧
      ((decodeBytes s.cfg 0 (s.input.take len.toNat)).out.drop (4 * k)).take 4 = bytesOfWord w := by
  have hvalid : ValidUpTo s.cfg (s.input.take len.toNat) (5 * k + 5) :=
    validUpTo_take_input (by omega) fun q hq => h q (by omega)
  obtain ⟨w, hw, hout⟩ := decodeBytes_chunk (by rw [List.length_take_of_le hn]; omega) hvalid 0
  iterate 5 rw [getD_take_input (by omega)] at hw
  exact ⟨w, hw, hout⟩

end Exec

/-- Settles O28: the command finishes with the success whose output is `decodeBytes` of its LEN characters. -/
theorem decodeWritesFourBytesPerChunk : Obligations.DecodeWritesFourBytesPerChunk := by
  refine ⟨encode_decode, fun len s hmod hn hready hvalid => ?_⟩
  have htake : (s.input.take len.toNat).length = len.toNat := List.length_take_of_le hn
  have hgood : (decodeBytes s.cfg 0 (s.input.take len.toNat)).bad = none := by
    rw [decodeBytes_bad_eq_none_iff (htake.symm ▸ hmod), htake]
    exact validUpTo_take_input le_rfl hvalid
  have hlen := decodeBytes_out_length hgood
  rw [htake] at hlen
  have hc : decodeCompletion s.cfg len (s.input.take len.toNat) =
      .success 0x2#4 0#32 (decodeBytes s.cfg 0 (s.input.take len.toNat)).out := by
    rw [decodeCompletion_of_mod hmod, hgood, decodeEnd]
  have ho : s.outReady = true ∨ (decodeCompletion s.cfg len (s.input.take len.toNat)).out = [] :=
    hready.imp_right fun hzero => by rw [hzero]; rfl
  refine ⟨(decodeBytes s.cfg 0 (s.input.take len.toNat)).out, ?_, hlen, fun k hk =>
    decodeBytes_take_input_chunk hn le_rfl hvalid hk⟩
  rw [exec_decode hn ho, hc, ← hlen]
  rfl

/-- Settles O30: the loop reports the first INVALID character, and the bytes of the chunks before its chunk are its output. -/
theorem decodeReportsFirstInvalidCharacter : Obligations.DecodeReportsFirstInvalidCharacter := by
  intro len s pos hmod hn hready hpos hbad hbefore
  have htake : (s.input.take len.toNat).length = len.toNat := List.length_take_of_le hn
  have hget : (s.input.take len.toNat).getD pos 0#8 = s.byteIn pos := getD_take_input hpos
  obtain ⟨hreport, hlen⟩ := decodeBytes_first_invalid (htake.symm ▸ hmod) (htake.symm ▸ hpos) (hget.symm ▸ hbad)
    (validUpTo_take_input hpos.le hbefore) 0
  rw [hget, Nat.zero_add] at hreport
  have hc : decodeCompletion s.cfg len (s.input.take len.toNat) =
      invalidCharacter 0x2#4 (s.byteIn pos) pos (decodeBytes s.cfg 0 (s.input.take len.toNat)).out := by
    rw [decodeCompletion_of_mod hmod, hreport, decodeEnd]
  have ho : s.outReady = true ∨ (decodeCompletion s.cfg len (s.input.take len.toNat)).out = [] :=
    hready.imp_right fun hfirst => by
      rw [hc, invalidCharacter_out, ← List.length_eq_zero_iff, hlen, Nat.div_eq_of_lt hfirst]
  refine ⟨(decodeBytes s.cfg 0 (s.input.take len.toNat)).out, ?_, hlen, fun k hk =>
    decodeBytes_take_input_chunk hn hpos.le hbefore hk⟩
  rw [exec_decode hn ho, hc, ← hlen]
  rfl

/-- Settles O29: the command has no output to wait for, and finishes with the LengthError. -/
theorem decodeReportsLengthError : Obligations.DecodeReportsLengthError := by
  intro len s hmod hn
  rw [exec_decode hn (.inr (by rw [decodeCompletion_of_not_mod hmod, lengthError_out])), decodeCompletion_of_not_mod hmod,
    finish_lengthError]
  rfl

/-! ### Calls of a quiet block -/

theorem State.Quiet.retire {s : State} (hs : s.Quiet) (c : Completion) : (s.retire c).Quiet :=
  ⟨rfl, hs.noCommand, hs.noInput, hs.released, hs.ready⟩

/-- On a quiet block a command that takes all the bytes sent with it completes at once, and once its output is taken it has
left only its registers and its outcome behind (R31, R123). -/
theorem call_of_quiet {cmd : Word} {bytes : List Byte} {run : List Byte → Completion} {s : State} (hs : s.Quiet)
    (hneed : inputNeed cmd = bytes.length)
    (hrun : runCommand cmd { s with input := bytes } = transact cmd bytes.length run { s with input := bytes }) :
    call cmd bytes s = .next (s.retire (run bytes), (run bytes).outcome) := by
  obtain ⟨hidle, hport, hinput, hreleased, hready⟩ := hs
  have hissue : hostAct (.issue cmd) s = .next { s with commands := [cmd] } := by simp [hostAct, hreleased, hport]
  have hsend : hostAct (.send bytes) { s with commands := [cmd] } = .next { s with commands := [cmd], input := bytes } := by
    simp [hostAct, hreleased, hinput, State.owed, hidle, hneed]
  have hstep : step { s with commands := [cmd], input := bytes } =
      .next (State.finish bytes.length (run bytes) { s with input := bytes }) := by
    rw [step_idle (s := { s with commands := [cmd], input := bytes }) (later := []) hreleased hidle rfl, ← hport, hrun,
      transact_finish (s := { s with input := bytes }) (le_refl bytes.length) (.inl hready), List.take_length]
  rw [call, rest_of_idle hidle hport, callAtRest, if_neg (by simp [hidle, hport]), if_neg (by simp [hinput])]
  simp only [hissue, hsend, hstep]
  simp [State.retire, hinput]

section StreamCall
variable {len : BitVec 28} {bytes : List Byte} {s : State} (hs : s.Quiet) (hlen : len.toNat = bytes.length)
include hs hlen

theorem call_encode : call (encode (.encode len)) bytes s =
    .next (s.retire (encodeCompletion len bytes), (encodeCompletion len bytes).outcome) := by
  have hd := decode_encode_of_wf (i := .encode len) rfl
  exact call_of_quiet hs ((inputNeed_of_encode hd).trans hlen) (by rw [runCommand_of_ok hd, exec, execEncode, hlen])

theorem call_decode : call (encode (.decode len)) bytes s =
    .next (s.retire (decodeCompletion s.cfg len bytes), (decodeCompletion s.cfg len bytes).outcome) := by
  have hd := decode_encode_of_wf (i := .decode len) rfl
  exact call_of_quiet hs ((inputNeed_of_decode hd).trans hlen) (by rw [runCommand_of_ok hd, exec, execDecode, hlen])

end StreamCall

/-- Settles O33: the text fits LEN, the first call leaves a quiet block, and DECODE undoes ENCODE. -/
theorem exactRoundTripThroughTheBlock : Obligations.ExactRoundTripThroughTheBlock := by
  intro raw s hs hlegal hmod hfits
  have htext : (encodeBytes raw).length = 5 * (raw.length / 4) := encodeBytes_length raw
  have hlen : (BitVec.ofNat 28 raw.length).toNat = raw.length := Nat.mod_eq_of_lt (by omega)
  have hlen' : (BitVec.ofNat 28 (encodeBytes raw).length).toNat = (encodeBytes raw).length := Nat.mod_eq_of_lt (by omega)
  refine ⟨s.retire (.success 0x1#4 0#32 (encodeBytes raw)),
    (s.retire (.success 0x1#4 0#32 (encodeBytes raw))).retire (.success 0x2#4 0#32 raw), encodeBytes raw, ?_, by omega, ?_⟩
  · rw [call_encode hs hlen, encodeCompletion_of_mod (hlen.symm ▸ hmod)]
    rfl
  · rw [call_decode (hs.retire _) hlen', decodeCompletion_of_mod (by omega), retire_cfg,
      decodeBytes_encodeBytes hlegal hmod]
    rfl

end Sys2Proof.Machine
end

section
/-! PROOFS. Family 45_host_padding.md: Pad's marker (R91, R92) and Trim's use of it (R93), what any call of the block answers, and
PaddedEncode and PaddedDecode over it (R95, R96, R97, R121). -/

namespace Sys2Proof.Machine

/-! ### Pad -/

section Pad
variable (raw : List Byte)

theorem padNeed_pos : 1 ≤ padNeed raw := by
  unfold padNeed
  omega

theorem padNeed_le_four : padNeed raw ≤ 4 := Nat.sub_le 4 _

@[simp] theorem pad_length : (pad raw).length = raw.length + padNeed raw := by
  rw [pad, List.length_append, List.length_replicate]

theorem pad_length_mod_four : (pad raw).length % 4 = 0 := by
  rw [pad_length, padNeed]
  omega

end Pad

/-- Settles O51: `padNeed` fills up the last group of four, and the vectors evaluate. -/
theorem padAppendsItsMarker : Obligations.PadAppendsItsMarker :=
  ⟨fun raw => ⟨padNeed raw, padNeed_pos raw, padNeed_le_four raw, rfl, rfl, pad_length_mod_four raw, pad_length raw⟩,
    by decide, by decide, by decide⟩

/-! ### Trim -/

/-- Trim of a buffer that is not empty, by its last byte (R93). -/
theorem trim_concat (front : List Byte) (last : Byte) :
    trim (front ++ [last]) =
      if 4 < last.toNat ∨ front.length + 1 < last.toNat then front ++ [last]
      else (front ++ [last]).take (front.length + 1 - last.toNat) := by
  simp [trim]

/-- Trim undoes Pad: the last byte of the marker is its length, which Pad has appended (R91, R93). -/
theorem trim_pad (raw : List Byte) : trim (pad raw) = raw := by
  obtain ⟨n, hn⟩ := Nat.exists_eq_add_of_le' (padNeed_pos raw)
  have hle : n + 1 ≤ 4 := hn ▸ padNeed_le_four raw
  have hlast : (BitVec.ofNat 8 (n + 1)).toNat = n + 1 := Nat.mod_eq_of_lt (by omega)
  rw [pad, hn, List.replicate_succ', ← List.append_assoc, trim_concat, hlast, if_neg (by rw [List.length_append, List.length_replicate]; omega)]
  simp

/-- Settles O52: `trim_concat` in each of its two cases, and `trim_pad`. -/
theorem trimRemovesTheMarker : Obligations.TrimRemovesTheMarker := by
  refine ⟨rfl, fun front last => ⟨fun hkeep => ?_, fun hsmall hfits => ?_⟩, trim_pad⟩
  · rw [trim_concat, if_pos hkeep]
  · rw [trim_concat, if_neg (by omega)]

/-! ### What a call of the block answers -/

section Call
variable {cmd : Word} {bytes : List Byte} {s : State}

/-- A call that answers gives what its own command completes with on its own bytes, and leaves no output byte of its own
(R35, R42). -/
theorem call_answers {t : State} {o : CmdOutcome} (h : call cmd bytes s = .next (t, o)) :
    t.output = s.rest.output ∧ ∃ c, completionOf s.cfg cmd bytes = some c ∧ o = c.outcome := by
  obtain ⟨-, -, -, -, hle, u, hrun, hidle, hlast, rfl⟩ := callAtRest_cases h
  obtain ⟨hge, c, hc, rfl⟩ := runCommand_completes hrun hidle
  have hall : bytes.take (inputNeed cmd) = bytes := List.take_of_length_le hle
  refine ⟨rfl, c, ?_, (Option.some.inj hlast).symm⟩
  simpa only [hall, rest_cfg] using hc

/-- A call waits for the block to come to rest, so on a block that comes to rest quiet it is a call of the quiet block. -/
theorem call_eq_call_rest (hs : s.rest.Quiet) : call cmd bytes s = call cmd bytes s.rest := by
  rw [call, call, rest_of_idle hs.idle hs.noCommand]

end Call

/-- The LEN of a call's command is the number of its bytes, where LEN can express it (R47). -/
theorem toNat_ofNat_length {bytes : List Byte} (h : bytes.length < 2 ^ 28) :
    (BitVec.ofNat 28 bytes.length).toNat = bytes.length :=
  Nat.mod_eq_of_lt h

/-! ### PaddedEncode -/

/-- A padded buffer fits LEN where the buffer is at most 2^28 - 5 bytes long (R95). -/
theorem pad_length_le_iff {raw : List Byte} : (pad raw).length ≤ 2 ^ 28 - 4 ↔ raw.length ≤ 2 ^ 28 - 5 := by
  have hmod := pad_length_mod_four raw
  have hpos := padNeed_pos raw
  have hle := padNeed_le_four raw
  rw [pad_length] at hmod ⊢
  omega

section PaddedEncode
variable {raw : List Byte} (s : State)

theorem pad_length_lt (h : raw.length ≤ 2 ^ 28 - 5) : (pad raw).length < 2 ^ 28 :=
  (pad_length_le_iff.2 h).trans_lt (by decide)

/-- ENCODE of Pad's result finds a length it accepts, so it succeeds (R91, R95). -/
theorem encodeCompletion_pad (h : raw.length ≤ 2 ^ 28 - 5) :
    encodeCompletion (BitVec.ofNat 28 (pad raw).length) (pad raw) = .success 0x1#4 0#32 (encodeBytes (pad raw)) :=
  encodeCompletion_of_mod (by rw [toNat_ofNat_length (pad_length_lt h), pad_length_mod_four]) _

theorem paddedEncode_of_le (h : raw.length ≤ 2 ^ 28 - 5) :
    paddedEncode raw s = call (encode (.encode (BitVec.ofNat 28 (pad raw).length))) (pad raw) s :=
  if_pos (by rw [lenW_val]; exact pad_length_le_iff.2 h)

theorem paddedEncode_of_gt (h : 2 ^ 28 - 5 < raw.length) : paddedEncode raw s = .refused .lengthNotExpressible :=
  if_neg (by rw [lenW_val, pad_length_le_iff]; exact Nat.not_le.2 h)

end PaddedEncode

/-- Settles O58: whatever a call answers is ENCODE's completion on Pad's result, and a call of a quiet block answers. -/
theorem paddedEncodeNeverFails : Obligations.PaddedEncodeNeverFails := by
  intro raw s
  refine ⟨fun hs hfits => ?_, fun t o h => ?_, paddedEncode_of_gt s⟩
  · have hmod := pad_length_mod_four raw
    refine ⟨s.rest.retire (.success 0x1#4 0#32 (encodeBytes (pad raw))), ?_, by rw [encodeBytes_length]; omega⟩
    rw [paddedEncode_of_le s hfits, call_eq_call_rest hs, call_encode hs (toNat_ofNat_length (pad_length_lt hfits)),
      encodeCompletion_pad hfits, success_outcome]
  · by_cases hfits : raw.length ≤ 2 ^ 28 - 5
    · rw [paddedEncode_of_le s hfits] at h
      obtain ⟨-, c, hc, rfl⟩ := call_answers h
      simp only [completionOf, decode_encode_of_wf (i := .encode _) rfl, encodeCompletion_pad hfits] at hc
      rw [← Option.some.inj hc, success_outcome]
    · rw [paddedEncode_of_gt s (Nat.not_le.1 hfits)] at h
      cases h

/-! ### PaddedDecode -/

/-- What PaddedDecode answers for a text: DECODE's outcome, trimmed if it succeeded (R96, R121). -/
def paddedDecodeOutcome (cfg : Config) (text : List Byte) : CmdOutcome :=
  trimOutcome (decodeCompletion cfg (BitVec.ofNat 28 text.length) text).outcome

section Outcome
variable {cfg : Config} {text : List Byte} (hlt : text.length < 2 ^ 28)
include hlt

theorem paddedDecodeOutcome_of_not_mod (hmod : text.length % 5 ≠ 0) :
    paddedDecodeOutcome cfg text = .lengthError 5 text.length := by
  have hlen := toNat_ofNat_length hlt
  rw [paddedDecodeOutcome, decodeCompletion_of_not_mod (by rwa [hlen])]
  exact congrArg (CmdOutcome.lengthError 5) hlen

theorem paddedDecodeOutcome_of_mod (hmod : text.length % 5 = 0) :
    paddedDecodeOutcome cfg text =
      trimOutcome (decodeEnd (decodeBytes cfg 0 text).out (decodeBytes cfg 0 text).bad).outcome := by
  rw [paddedDecodeOutcome, decodeCompletion_of_mod (by rwa [toNat_ofNat_length hlt])]

theorem paddedDecodeOutcome_of_good (hmod : text.length % 5 = 0) (hgood : (decodeBytes cfg 0 text).bad = none) :
    paddedDecodeOutcome cfg text = .ok (trim (decodeBytes cfg 0 text).out) := by
  rw [paddedDecodeOutcome_of_mod hlt hmod, hgood]
  rfl

theorem paddedDecodeOutcome_of_bad (hmod : text.length % 5 = 0) {c : Byte} {pos : Nat}
    (hbad : (decodeBytes cfg 0 text).bad = some (c, pos)) : paddedDecodeOutcome cfg text = .invalidCharacter c pos := by
  rw [paddedDecodeOutcome_of_mod hlt hmod, hbad]
  rfl

end Outcome

section PaddedDecode
variable {text : List Byte} {s t : State} {o : CmdOutcome} (hlt : text.length < 2 ^ 28)
include hlt

/-- PaddedDecode answers where DECODE of the text does, with its outcome trimmed (R96). -/
theorem paddedDecode_eq_next_iff :
    paddedDecode text s = .next (t, o) ↔
      ∃ o', call (encode (.decode (BitVec.ofNat 28 text.length))) text s = .next (t, o') ∧ trimOutcome o' = o := by
  have hfits : text.length < 2 ^ s.cfg.lenW.val := by rwa [lenW_val]
  rw [paddedDecode, if_pos hfits]
  rcases call (encode (.decode (BitVec.ofNat 28 text.length))) text s with ⟨t', o'⟩ | r | r <;> simp

theorem paddedDecode_answers (h : paddedDecode text s = .next (t, o)) :
    o = paddedDecodeOutcome s.cfg text ∧ t.output = s.rest.output := by
  obtain ⟨o', hcall, rfl⟩ := (paddedDecode_eq_next_iff hlt).1 h
  obtain ⟨hout, c, hc, rfl⟩ := call_answers hcall
  simp only [completionOf, decode_encode_of_wf (i := .decode _) rfl, Option.some.injEq] at hc
  exact ⟨by rw [paddedDecodeOutcome, hc], hout⟩

theorem paddedDecode_of_quiet (hs : s.rest.Quiet) :
    ∃ t, paddedDecode text s = .next (t, paddedDecodeOutcome s.cfg text) ∧ t.output = s.rest.output := by
  have hcall := call_decode hs (toNat_ofNat_length hlt)
  rw [← call_eq_call_rest hs, rest_cfg] at hcall
  exact ⟨_, (paddedDecode_eq_next_iff hlt).2 ⟨_, hcall, rfl⟩, rfl⟩

end PaddedDecode

/-- Settles O54: any answer is `paddedDecodeOutcome`, which a block that comes to rest quiet gives, and its cases are DECODE's. -/
theorem paddedDecodePropagatesErrors : Obligations.PaddedDecodePropagatesErrors := by
  intro text s hlt
  refine ⟨fun t raw h => (paddedDecode_eq_next_iff hlt).2 ⟨_, h, rfl⟩, fun t o h => ?_, fun hs hmod => ?_,
    fun hs hmod hgood => ?_, fun pos hs hmod hpos hinvalid hbefore => ?_⟩
  · obtain ⟨rfl, hout⟩ := paddedDecode_answers hlt h
    exact ⟨hout, paddedDecodeOutcome_of_not_mod hlt, paddedDecodeOutcome_of_good hlt,
      fun c pos hmod => paddedDecodeOutcome_of_bad hlt hmod⟩
  · exact paddedDecodeOutcome_of_not_mod hlt hmod ▸ paddedDecode_of_quiet hlt hs
  · exact paddedDecodeOutcome_of_good hlt hmod hgood ▸ paddedDecode_of_quiet hlt hs
  · obtain ⟨hbad, -⟩ := decodeBytes_first_invalid hmod hpos hinvalid hbefore 0
    rw [Nat.zero_add] at hbad
    exact paddedDecodeOutcome_of_bad hlt hmod hbad ▸ paddedDecode_of_quiet hlt hs

/-! ### The padded round trip -/

/-- Settles O53: O33's round trip gives Pad's result back, which Trim takes to the buffer. -/
theorem paddedRoundTripThroughTheBlock : Obligations.PaddedRoundTripThroughTheBlock := by
  intro raw s hs hlegal hfits
  have hmod := pad_length_mod_four raw
  have hbound : (pad raw).length ≤ 214748364 := by
    have hle := padNeed_le_four raw
    rw [pad_length] at hmod ⊢
    omega
  obtain ⟨t, u, text, hencode, hlen, hdecode⟩ := exactRoundTripThroughTheBlock (pad raw) s hs hlegal hmod hbound
  refine ⟨t, u, text, (paddedEncode_of_le s (by omega)).trans hencode,
    (paddedDecode_eq_next_iff (by omega)).2 ⟨_, hdecode, ?_⟩⟩
  rw [trimOutcome, trim_pad]

end Sys2Proof.Machine
end

section
/-! PROOFS. Family 60_exceptions.md: what the host sees of the command port (R104, R113), and the common reset of the instances of a
system (R112, R115, R116). -/

namespace Sys2Proof.Machine

/-! ### What a move of the block shows of the command port -/

/-- Only a block out of reset moves (R115). -/
theorem released_of_move {s t : State} (h : step s = .next t ∨ byteStep s = .next t) : s.resetAsserted = false :=
  h.elim (fun hstep => (step_cases hstep).1) (fun hbyte => (byteStep_cases hbyte).1)

theorem stepObserved_idle {s : State} {cmd : Word} {later : List Word} (hr : s.resetAsserted = false) (ha : s.active = none)
    (hc : s.commands = cmd :: later) : stepObserved s = [.accepted cmd] := by
  simp [stepObserved, State.acceptedWord, hr, ha, hc]

theorem stepObserved_busy {s : State} (ha : s.active.isSome = true) : stepObserved s = [] := by
  obtain ⟨tr, htr⟩ := Option.isSome_iff_exists.1 ha
  simp [stepObserved, State.acceptedWord, htr]

/-- Everything a move can do at the port and show of it: an idle block takes the first word and is seen to, a busy one does neither. -/
theorem portMove_cases {s t : State} (h : step s = .next t ∨ byteStep s = .next t) :
    (∃ cmd, s.active = none ∧ s.commands = cmd :: t.commands ∧ stepObserved s = [.accepted cmd]) ∨
      (s.active.isSome = true ∧ t.commands = s.commands ∧ stepObserved s = []) := by
  obtain ⟨ha, cmd, hc⟩ | ⟨ha, hc⟩ := commandWordsKeepTheirOrder s t h
  · exact .inl ⟨cmd, ha, hc, stepObserved_idle (released_of_move h) ha hc⟩
  · exact .inr ⟨ha, hc, stepObserved_busy ha⟩

/-- BUSY reads 1 exactly while a transaction is in progress (R18, R25). -/
theorem busyBit_readReg_status (s : State) : busyBit (readReg s 0x0#4) = s.active.isSome := busyBit_withBusy _ _

theorem observe_pollPort_eq_iff {s : State} {free : Bool} :
    observe .pollPort s = [.portFree free] ↔ s.commands.isEmpty = free := by
  simp [observe]

/-- Settles O56: in each of the two cases of `portMove_cases`, BUSY, the port and what is seen are known. -/
theorem portAcceptanceShowsCompletion : Obligations.PortAcceptanceShowsCompletion := by
  intro s t h
  simp only [busyBit_readReg_status, observe_pollPort_eq_iff]
  obtain ⟨cmd, ha, hc, hseen⟩ | ⟨ha, hc, hseen⟩ := portMove_cases h
  · refine ⟨fun cmd' => by simp [ha, hc, hseen], fun _ _ => by rw [ha]; rfl, fun hbusy => by simp [ha] at hbusy,
      fun _ hfree => ⟨cmd, ?_, hseen⟩⟩
    rw [hc, List.isEmpty_iff.1 hfree]
  · refine ⟨fun cmd' => ?_, fun cmd' hacc => by simp [hseen] at hacc, fun _ => ⟨hseen, hc⟩, fun hwaits hfree => ?_⟩
    · simp [hseen, Option.isSome_iff_ne_none.1 ha]
    · rw [hc, hwaits] at hfree
      cases hfree

/-! ### One reset for all instances -/

theorem step_of_reset {s : State} (hr : s.resetAsserted = true) : step s = .refused .heldInReset := by
  simp [step, hr]

theorem step_of_nothing_presented {s : State} (hr : s.resetAsserted = false) (ha : s.active = none) (hc : s.commands = []) :
    step s = .refused .waitingForCommand := by
  simp [step, hr, ha, hc]

theorem getElem?_release_reset {sys : List State} {k : Nat} {s u : State} (hs : sys[k]? = some s)
    (hu : (releaseInstances (resetInstances sys))[k]? = some u) : u = { s.abandon with resetAsserted := false } := by
  simpa [releaseInstances, resetInstances, hs, eq_comm] using hu

/-- Instances that all have the same level at their reset input are together. -/
theorem startedTogether_of_level {sys : List State} {level : Bool} (h : ∀ s ∈ sys, s.resetAsserted = level) :
    StartedTogether sys :=
  fun s hs t ht => (h s hs).trans (h t ht).symm

theorem resetInstances_startedTogether (sys : List State) : StartedTogether (resetInstances sys) :=
  startedTogether_of_level (List.forall_mem_map.2 fun s _ => abandon_resetAsserted s)

theorem releaseInstances_startedTogether (sys : List State) : StartedTogether (releaseInstances sys) :=
  startedTogether_of_level (level := false) (List.forall_mem_map.2 fun _ _ => rfl)

theorem systemReset_startedTogether (cfgs : List Config) : StartedTogether (systemReset cfgs) :=
  startedTogether_of_level (level := false) (List.forall_mem_map.2 fun _ _ => rfl)

theorem step_resetAsserted {s t : State} (h : step s = .next t) : t.resetAsserted = s.resetAsserted := by
  obtain ⟨-, -, hreset⟩ := step_keeps_inputs h
  exact hreset

theorem instanceAct_resetAsserted {a : HostAction} {s t : State} (h : instanceAct a s = .next t) :
    t.resetAsserted = s.resetAsserted := by
  obtain ⟨-, -, -, hreset⟩ := instanceAct_cases h
  exact hreset

/-- A move of one instance that leaves its own reset input alone leaves the instances together: each has the level one had before. -/
theorem actOn_startedTogether {k : Nat} {f : State → Host.Outcome State Fault Refusal} {sys sys' : List State}
    (hf : ∀ s s', f s = .next s' → s'.resetAsserted = s.resetAsserted) (h : StartedTogether sys)
    (hact : actOn k f sys = .next sys') : StartedTogether sys' := by
  obtain ⟨s, s', hs, hmove, rfl⟩ := actOn_cases hact
  have hmem : s ∈ sys := List.mem_of_getElem? hs
  refine startedTogether_of_level (level := s.resetAsserted) fun u hu => ?_
  obtain hu | rfl := List.mem_or_eq_of_mem_set hu
  · exact h u hu s hmem
  · exact hf s u hmove

theorem systemAct_startedTogether {a : SystemAction} {sys sys' : List State} (h : StartedTogether sys)
    (hact : systemAct a sys = .next sys') : StartedTogether sys' := by
  cases a with
  | step k => exact actOn_startedTogether (fun _ _ => step_resetAsserted) h hact
  | host k act => exact actOn_startedTogether (fun _ _ => instanceAct_resetAsserted) h hact
  | assertReset => cases hact; exact resetInstances_startedTogether sys
  | releaseReset => cases hact; exact releaseInstances_startedTogether sys

/-- Settles O57: an instance after the reset and its release is `State.abandon` with the input low again, and no action on one
instance moves its reset input. -/
theorem instancesStartTogether : Obligations.InstancesStartTogether := by
  refine ⟨fun sys => ⟨resetInstances sys, releaseInstances (resetInstances sys), rfl, rfl, List.length_map _,
    (List.length_map _).trans (List.length_map _), List.forall_mem_map.2 fun s _ => step_of_reset (abandon_resetAsserted s),
    fun k s u hs hu => ?_⟩, fun _ _ _ => systemAct_startedTogether, systemReset_startedTogether,
    fun s t hcfg => by rw [readReg_id, readReg_id, hcfg]⟩
  obtain rfl := getElem?_release_reset hs hu
  exact ⟨rfl, rfl, rfl, withBusy_false_of_clear (st := 0#32) (by decide), rfl, rfl, rfl, step_of_nothing_presented rfl rfl rfl⟩

end Sys2Proof.Machine
end

section
/-! PROOFS. Family 70_reset_and_hazards.md: what reset abandons (R115, R116), the waits of a transaction (R120, R122), its bounded
completion and the rest of the block (R125, R114), the framing of the input stream (R120), and LATENCY, on which no rule depends
(R125). -/

namespace Sys2Proof.Machine

/-! ### Reset and the waits -/

/-- Settles O45: the state in reset is `State.abandon`, and its release leaves a block with nothing presented. -/
theorem resetAbandonsTheTransaction : Obligations.ResetAbandonsTheTransaction :=
  fun s => ⟨s.abandon, { s.abandon with resetAsserted := false }, rfl, rfl, rfl, rfl, rfl, rfl, rfl, rfl, rfl, rfl, rfl,
    step_of_reset (abandon_resetAsserted s), rfl, rfl, step_of_nothing_presented rfl rfl rfl⟩

section TickEquations
variable {tr : Transaction} {s : State}

theorem tick_of_pending {b : Byte} {bs : List Byte} (hp : tr.pending = b :: bs) (ho : s.outReady = true) :
    tick tr s = .next { s with output := s.output ++ [b],
                               active := some { tr with pending := bs, written := tr.written ++ [b] } } := by
  simp [tick, hp, ho]

theorem tick_of_input {b : Byte} {rest : List Byte} (hp : tr.pending = []) (hlt : tr.pos < inputNeed tr.word)
    (hi : s.input = b :: rest) : tick tr s = .next { s with input := rest, active := some (tr.feed s.cfg b) } := by
  simp [tick, hp, hlt, hi]

theorem tick_of_missing_input (hp : tr.pending = []) (hlt : tr.pos < inputNeed tr.word)
    (hi : s.input = []) : tick tr s = .refused .waitingForInput := by
  simp [tick, hp, hlt, hi]

theorem tick_of_held_output (hp : tr.pending ≠ []) (ho : s.outReady = false) :
    tick tr s = .refused .waitingForHost := by
  obtain ⟨b, bs, hbs⟩ := List.exists_cons_of_ne_nil hp
  simp [tick, hbs, ho]

end TickEquations

/-- Settles O42: the step of a busy block is its transaction's next move, and that one waits. -/
theorem waitingTransactionHasNoStep : Obligations.WaitingTransactionHasNoStep :=
  fun _ _ hr ha => ⟨fun hp hlt hi => (step_busy hr ha).trans (tick_of_missing_input hp hlt hi),
    fun hp ho => (step_busy hr ha).trans (tick_of_held_output hp ho)⟩

/-! ### The moves a transaction still has -/

/-- A byte completes at most one chunk, which has at most five output bytes (R70, R80). -/
theorem feed_pending_length_le (cfg : Config) {tr : Transaction} (hp : tr.pending = []) (b : Byte) :
    (tr.feed cfg b).pending.length ≤ 5 := by
  have hnone : tr.pending.length ≤ 5 := by simp [hp]
  unfold Transaction.feed
  split
  · unfold Transaction.feedEncode
    split_ifs
    · exact hnone
    · exact (encWord_length _).le
    · exact hnone
  · split
    · exact hnone
    · rcases feedDecode_cases cfg tr b with ⟨-, h⟩ | ⟨-, -, h⟩ | ⟨_, -, -, -, h⟩ | ⟨_, -, -, -, h⟩ <;> rw [h]
      · exact hnone
      · exact hnone
      · exact (bytesOfWord_length _).le.trans (by decide)
      · exact hnone
  all_goals exact hnone

/-- Every transaction that has moved all its bytes completes: no word asks for an entry that alphabet_lut does not have (R60). -/
theorem completeActive_completes (tr : Transaction) (s : State) :
    ∃ c : Completion, completeActive tr s = .next (s.retire c) := by
  have hnext : ∃ s', completeActive tr s = .next s' := by
    unfold completeActive
    split
    next => exact ⟨_, rfl⟩
    next => exact ⟨_, rfl⟩
    next idx hd =>
      obtain ⟨hwf, -⟩ := encodeOfDecodeIsTheWord tr.word _ hd
      have hidx : idx.toNat < 85 := Nat.lt_succ_of_le (by simpa [Instr.wf] using hwf)
      exact ⟨_, dif_pos hidx⟩
    next => exact ⟨_, rfl⟩
    next => exact ⟨_, rfl⟩
  obtain ⟨s', hs'⟩ := hnext
  obtain ⟨c, rfl, -⟩ := completeActive_cases hs'
  exact ⟨c, hs'⟩

/-- The byte moves a transaction has at most: its pending bytes, six for each input byte it is still owed, and its completion. -/
def Transaction.movesLeft (tr : Transaction) : Nat := tr.pending.length + 6 * (inputNeed tr.word - tr.pos) + 1

/-- Transaction `tr` is in progress and has nothing to wait for: the input it is owed is there, and the host takes output. -/
structure State.Supplies (s : State) (tr : Transaction) : Prop where
  released : s.resetAsserted = false
  active : s.active = some tr
  ready : s.outReady = true
  supplied : inputNeed tr.word - tr.pos ≤ s.input.length

/-- A supplied transaction makes a byte move, which completes it or leaves it supplied with fewer moves to make. -/
theorem State.Supplies.byteStep_advances {s : State} {tr : Transaction} (h : s.Supplies tr) :
    ∃ s', byteStep s = .next s' ∧
      (s'.active = none ∨ ∃ tr' : Transaction, s'.Supplies tr' ∧ tr'.movesLeft < tr.movesLeft) := by
  obtain ⟨hr, ha, ho, hn⟩ := h
  rw [byteStep_busy hr ha]
  rcases hp : tr.pending with _ | ⟨b, bs⟩
  · rcases Nat.lt_or_ge tr.pos (inputNeed tr.word) with hlt | hle
    · rcases hi : s.input with _ | ⟨b, rest⟩
      · rw [hi, List.length_nil] at hn
        omega
      · refine ⟨_, tick_of_input hp hlt hi, .inr ⟨tr.feed s.cfg b, ⟨hr, rfl, ho, ?_⟩, ?_⟩⟩
        · rw [hi, List.length_cons] at hn
          rw [feed_word, feed_pos _ _ _ hlt]
          change _ ≤ rest.length
          omega
        · have hfive : (tr.feed s.cfg b).pending.length ≤ 5 := feed_pending_length_le s.cfg hp b
          simp only [Transaction.movesLeft, feed_word, feed_pos _ _ _ hlt]
          omega
    · obtain ⟨c, hc⟩ := completeActive_completes tr s
      exact ⟨s.retire c, (tick_of_done hp hle s).trans hc, .inl (retire_active c s)⟩
  · refine ⟨_, tick_of_pending hp ho, .inr ⟨{ tr with pending := bs, written := tr.written ++ [b] },
      ⟨hr, rfl, ho, hn⟩, ?_⟩⟩
    simp only [Transaction.movesLeft, hp, List.length_cons]
    omega

/-- A supplied transaction completes within the moves it has left. -/
theorem State.Supplies.completes {s : State} {tr : Transaction} (h : s.Supplies tr) :
    ∃ (k : Nat) (u : State), k ≤ tr.movesLeft ∧ byteRun k s = .next u ∧ u.active = none := by
  induction hm : tr.movesLeft using Nat.strong_induction_on generalizing s tr with
  | _ m ih =>
    obtain ⟨s', hstep, hdone | ⟨tr', hs', hlt⟩⟩ := h.byteStep_advances
    · exact ⟨1, s', hm ▸ Nat.le_add_left 1 _, by simp [byteRun, hstep], hdone⟩
    · obtain ⟨k, u, hk, hrun, hu⟩ := ih tr'.movesLeft (hm ▸ hlt) hs' rfl
      exact ⟨k + 1, u, by omega, by rw [byteRun_succ, hstep]; exact hrun, hu⟩

/-- Settles O44: the bound is `Transaction.movesLeft`, which every byte move of a supplied transaction makes smaller. -/
theorem transactionCompletesWithinItsInputLength : Obligations.TransactionCompletesWithinItsInputLength :=
  fun _ _ hr ha ho hn => State.Supplies.completes ⟨hr, ha, ho, hn⟩

/-! ### The block comes to rest -/

section SettleFuel
variable {s : State}

theorem settleFuel_idle (ha : s.active = none) : settleFuel s = 6 * s.input.length + 2 * s.commands.length := by
  simp [settleFuel, ha]

theorem settleFuel_busy {tr : Transaction} (ha : s.active = some tr) :
    settleFuel s = 6 * s.input.length + 2 * s.commands.length + (tr.pending.length + 1) := by
  simp [settleFuel, ha]

end SettleFuel

theorem tick_settleFuel {tr : Transaction} {s t : State} (ha : s.active = some tr) (h : tick tr s = .next t) :
    settleFuel t < settleFuel s := by
  rw [settleFuel_busy ha]
  rcases tick_cases h with ⟨b, bs, hp, -, rfl⟩ | ⟨b, rest, hp, -, hi, rfl⟩ | ⟨-, -, hc⟩
  · rw [settleFuel_busy rfl, hp, List.length_cons]
    change 6 * s.input.length + 2 * s.commands.length + (bs.length + 1) < _
    omega
  · have hfive : (tr.feed s.cfg b).pending.length ≤ 5 := feed_pending_length_le s.cfg hp b
    rw [settleFuel_busy rfl, hi, List.length_cons]
    change 6 * rest.length + 2 * s.commands.length + _ < _
    omega
  · obtain ⟨c, rfl, -⟩ := completeActive_cases hc
    rw [settleFuel_idle rfl, retire_input, retire_commands]
    omega

/-- An idle block's step completes a command or has just accepted one (R31). -/
theorem active_of_accepting_step {s t : State} (ha : s.active = none) (h : step s = .next t) :
    t.active = none ∨ ∃ cmd, t.active = some (.fresh cmd) := by
  obtain ⟨-, ⟨tr, hbusy, -⟩ | ⟨_, _, _, -, -, -, he⟩ | ⟨_, _, _, -, -, -, rfl⟩⟩ := step_cases h
  · simp [ha] at hbusy
  · rcases exec_cases he with ⟨_, -, -, rfl⟩ | ⟨_, -, -, rfl⟩ | ⟨_, _, -, rfl⟩ | ⟨_, -, rfl⟩ | rfl
    · exact .inl (finish_active ..)
    · exact .inl (finish_active ..)
    · exact .inl (finish_active ..)
    · exact .inl (finish_active ..)
    · exact .inr ⟨_, start_active ..⟩
  · exact .inl (finish_active ..)

/-- An acceptance takes two from the bound for its word, and gives back at most one for the completion still to come. -/
theorem acceptance_settleFuel {s t : State} {cmd : Word} (ha : s.active = none) (hc : s.commands = cmd :: t.commands)
    (h : step s = .next t) : settleFuel t < settleFuel s := by
  have hinput : t.input.length ≤ s.input.length := by
    obtain ⟨n, _, -, hn, -⟩ := streamsOnlyAdvance s t (.inl h)
    rw [hn, List.length_drop]
    exact Nat.sub_le _ _
  rw [settleFuel_idle ha, hc, List.length_cons]
  obtain ht | ⟨_, ht⟩ := active_of_accepting_step ha h
  · rw [settleFuel_idle ht]
    omega
  · rw [settleFuel_busy ht]
    change _ + (0 + 1) < _
    omega

theorem step_settleFuel {s t : State} (h : step s = .next t) : settleFuel t < settleFuel s := by
  obtain ⟨hr, -⟩ := step_cases h
  obtain ⟨ha, cmd, hc⟩ | ⟨ha, -⟩ := commandWordsKeepTheirOrder s t (.inl h)
  · exact acceptance_settleFuel ha hc h
  · obtain ⟨tr, htr⟩ := Option.isSome_iff_exists.1 ha
    exact tick_settleFuel htr ((step_busy hr htr).symm.trans h)

/-- As many steps as the bound bring a block to where it has none. -/
theorem step_settle_ne_next {k : Nat} {s : State} (h : settleFuel s ≤ k) (t : State) : step (settle k s) ≠ .next t := by
  induction k generalizing s with
  | zero => exact fun hstep => absurd (step_settleFuel hstep) (by rw [settle]; omega)
  | succ k ih =>
    rw [settle]
    split
    next s' hs' => exact ih (Nat.le_of_lt_succ ((step_settleFuel hs').trans_le h))
    next hs => simp [hs]
    next hs => simp [hs]

/-- Settles O55: `State.rest` takes as many steps as `settleFuel` allows, and every step makes it smaller. -/
theorem blockComesToRest : Obligations.BlockComesToRest := fun _ => step_settle_ne_next le_rfl

/-! ### The framing of the input stream -/

section Owed
variable {s : State}

theorem owed_idle (ha : s.active = none) : s.owed = (s.commands.map inputNeed).sum := by
  simp [State.owed, ha]

theorem owed_busy {tr : Transaction} (ha : s.active = some tr) :
    s.owed = inputNeed tr.word - tr.pos + (s.commands.map inputNeed).sum := by
  simp [State.owed, ha]

end Owed

/-- A byte consumed is a byte owed no more; the other moves change neither count. -/
theorem tick_framed {tr : Transaction} {s t : State} (hs : s.Framed) (ha : s.active = some tr) (h : tick tr s = .next t) :
    t.Framed := by
  unfold State.Framed at hs ⊢
  rw [owed_busy ha] at hs
  rcases tick_cases h with ⟨b, bs, -, -, rfl⟩ | ⟨b, rest, -, hlt, hi, rfl⟩ | ⟨-, hle, hc⟩
  · rw [owed_busy rfl]
    exact hs
  · rw [hi, List.length_cons] at hs
    rw [owed_busy rfl, feed_word, feed_pos _ _ _ hlt]
    change rest.length ≤ _ + (s.commands.map inputNeed).sum
    omega
  · obtain ⟨c, rfl, -⟩ := completeActive_cases hc
    rw [owed_idle rfl, retire_input, retire_commands]
    omega

/-- An acceptance moves what its word owes from the port to the transaction. -/
theorem byteStep_framed {s t : State} (hs : s.Framed) (h : byteStep s = .next t) : t.Framed := by
  obtain ⟨-, ⟨tr, ha, ht⟩ | ⟨cmd, later, ha, hc, rfl⟩⟩ := byteStep_cases h
  · exact tick_framed hs ha ht
  · unfold State.Framed at hs ⊢
    rw [owed_idle ha, hc, List.map_cons, List.sum_cons] at hs
    rw [owed_busy rfl]
    exact hs

/-- Presenting a word owes more, a send is checked, and reset empties the stream. -/
theorem hostAct_framed {a : HostAction} {s t : State} (hs : s.Framed) (h : hostAct a s = .next t) : t.Framed := by
  unfold State.Framed at hs ⊢
  cases a with
  | issue cmd =>
    simp only [hostAct] at h
    split at h <;> cases h
    simp only [State.owed, List.map_append, List.sum_append] at hs ⊢
    omega
  | send bytes =>
    simp only [hostAct] at h
    split at h
    · cases h
    · split at h <;> cases h
      rw [List.length_append]
      assumption
  | recv =>
    simp only [hostAct] at h
    split at h <;> cases h
    exact hs
  | recvAll | read | pollPort | setReady | releaseReset => cases h; exact hs
  | assertReset => cases h; exact Nat.zero_le _

theorem hostAct_send_unowed {s : State} {bytes : List Byte} (hr : s.resetAsserted = false)
    (h : s.owed < s.input.length + bytes.length) : hostAct (.send bytes) s = .refused .unowedInput := by
  simp [hostAct, hr, Nat.not_le.2 h]

/-- Settles O46: a byte-level step and a host action keep the framing, and a step is a run of byte-level steps. -/
theorem framingIsKept : Obligations.FramingIsKept := by
  refine ⟨fun _ _ => hostAct_send_unowed, fun s t hs h => ?_⟩
  rcases h with h | h | ⟨a, h⟩
  · exact (reaches_of_step h).keeps (fun _ _ => byteStep_framed) hs
  · exact byteStep_framed hs h
  · exact hostAct_framed hs h

/-! ### Other command times -/

/-- Where no word is accepted, the two grains of the block do the same (R31). -/
theorem byteStep_eq_step_of_no_acceptance {s : State} (h : s.acceptedWord = none) : byteStep s = step s := by
  rcases hr : s.resetAsserted with _ | _
  · rcases ha : s.active with _ | tr
    · have hc : s.commands = [] := by simpa [State.acceptedWord, hr, ha] using h
      simp [byteStep, step, hr, ha, hc]
    · rw [byteStep_busy hr ha, step_busy hr ha]
  · simp [byteStep, step, hr]

theorem acceptedWord_eq_some {s : State} {cmd : Word} (h : s.acceptedWord = some cmd) :
    s.resetAsserted = false ∧ s.active = none ∧ ∃ later, s.commands = cmd :: later := by
  unfold State.acceptedWord at h
  split at h
  · cases h
  next hr =>
    split at h
    · cases h
    next ha => exact ⟨Bool.eq_false_iff.2 hr, ha, List.head?_eq_some_iff.1 h⟩

/-- The outcome another LATENCY makes of an outcome: the same one, with those times in its state. -/
def outcomeWithLatency (times : List Nat) : Host.Outcome State Fault Refusal → Host.Outcome State Fault Refusal
  | .next s => .next (s.withLatency times)
  | .fault r => .fault r
  | .refused r => .refused r

section WithLatency
variable (times : List Nat) (cfg : Config) (s : State)

@[simp] theorem decChar_withLatency (c : Byte) : decChar (cfg.withLatency times) c = decChar cfg c := rfl

@[simp] theorem decChunkFrom_withLatency (p : Nat) (acc : Word) (cs : List Byte) :
    decChunkFrom (cfg.withLatency times) p acc cs = decChunkFrom cfg p acc cs := by
  induction cs generalizing p acc with
  | nil => rfl
  | cons c cs ih => simp only [decChunkFrom, decChar_withLatency, ih]

@[simp] theorem decChunk_withLatency (c0 c1 c2 c3 c4 : Byte) :
    decChunk (cfg.withLatency times) c0 c1 c2 c3 c4 = decChunk cfg c0 c1 c2 c3 c4 :=
  decChunkFrom_withLatency times cfg _ _ _

@[simp] theorem decodeBytes_withLatency (pos : Nat) (chars : List Byte) :
    decodeBytes (cfg.withLatency times) pos chars = decodeBytes cfg pos chars := by
  induction pos, chars using decodeBytes.induct (cfg := cfg) with
  | case1 pos c0 c1 c2 c3 c4 rest b p hb => simp only [decodeBytes, decChunk_withLatency, hb]
  | case2 pos c0 c1 c2 c3 c4 rest w hw ih => simp only [decodeBytes, decChunk_withLatency, ih]
  | case3 chars pos hshort => rw [decodeBytes.eq_2 _ _ _ hshort, decodeBytes.eq_2 _ _ _ hshort]

@[simp] theorem decodeCompletion_withLatency (len : BitVec 28) (chars : List Byte) :
    decodeCompletion (cfg.withLatency times) len chars = decodeCompletion cfg len chars := by
  simp only [decodeCompletion, decodeBytes_withLatency]

theorem transact_withLatency (cmd : Word) (n : Nat) (run : List Byte → Completion) :
    transact cmd n run (s.withLatency times) = outcomeWithLatency times (transact cmd n run s) := by
  rw [transact, transact, apply_ite (outcomeWithLatency times)]
  rfl

theorem exec_withLatency (i : Instr) : exec i (s.withLatency times) = outcomeWithLatency times (exec i s) := by
  cases i with
  | encode len => exact transact_withLatency times s _ _ _
  | decode len =>
    simp only [exec, execDecode, state_withLatency_cfg]
    rw [funext (decodeCompletion_withLatency times s.cfg len)]
    exact transact_withLatency times s _ _ _
  | alphaLookup idx =>
    simp only [exec, execAlphaLookup]
    split <;> rfl
  | revLookup byte => rfl

theorem runCommand_withLatency (cmd : Word) :
    runCommand cmd (s.withLatency times) = outcomeWithLatency times (runCommand cmd s) := by
  unfold runCommand
  split
  · exact exec_withLatency times s _
  · rfl

theorem completeActive_withLatency (tr : Transaction) :
    completeActive tr (s.withLatency times) = outcomeWithLatency times (completeActive tr s) := by
  unfold completeActive
  split
  · rfl
  · rfl
  · exact exec_withLatency times s (.alphaLookup _)
  · rfl
  · rfl

theorem tick_withLatency (tr : Transaction) : tick tr (s.withLatency times) = outcomeWithLatency times (tick tr s) := by
  rcases hp : tr.pending with _ | ⟨b, bs⟩
  · rcases Nat.lt_or_ge tr.pos (inputNeed tr.word) with hlt | hle
    · rcases hi : s.input with _ | ⟨b, rest⟩
      · rw [tick_of_missing_input hp hlt hi]
        exact tick_of_missing_input hp hlt hi
      · rw [tick_of_input hp hlt hi]
        exact tick_of_input hp hlt hi
    · rw [tick_of_done hp hle, tick_of_done hp hle]
      exact completeActive_withLatency times s tr
  · rcases ho : s.outReady with _ | _
    · rw [tick_of_held_output (by simp [hp]) ho]
      exact tick_of_held_output (by simp [hp]) ho
    · rw [tick_of_pending hp ho]
      exact tick_of_pending hp ho

theorem step_withLatency : step (s.withLatency times) = outcomeWithLatency times (step s) := by
  rcases hr : s.resetAsserted with _ | _
  · rcases ha : s.active with _ | tr
    · rcases hc : s.commands with _ | ⟨cmd, later⟩
      · rw [step_of_nothing_presented hr ha hc]
        exact step_of_nothing_presented hr ha hc
      · rw [step_idle hr ha hc]
        exact (step_idle (s := s.withLatency times) hr ha hc).trans
          (runCommand_withLatency times { s with commands := later } cmd)
    · rw [step_busy hr ha]
      exact (step_busy (s := s.withLatency times) hr ha).trans (tick_withLatency times s tr)
  · rw [step_of_reset hr]
    exact step_of_reset hr

theorem byteStep_withLatency : byteStep (s.withLatency times) = outcomeWithLatency times (byteStep s) := by
  rcases hs : s.acceptedWord with _ | cmd
  · rw [byteStep_eq_step_of_no_acceptance hs, ← step_withLatency]
    exact byteStep_eq_step_of_no_acceptance hs
  · obtain ⟨hr, ha, later, hc⟩ := acceptedWord_eq_some hs
    rw [byteStep_idle hr ha hc]
    exact byteStep_idle (s := s.withLatency times) hr ha hc

theorem hostAct_withLatency (a : HostAction) :
    hostAct a (s.withLatency times) = outcomeWithLatency times (hostAct a s) := by
  cases a with
  | issue | recv | send =>
    simp only [hostAct, apply_ite (outcomeWithLatency times)]
    rfl
  | recvAll | read | pollPort | setReady | assertReset | releaseReset => rfl

end WithLatency

/-- Settles O59: each of the three moves of a block with other times is the move of the block, with those times in its state. -/
theorem noRuleDependsOnLatency : Obligations.NoRuleDependsOnLatency := by
  refine fun s times => ⟨fun t h => ?_, fun r h => ?_, fun t h => ?_, fun r h => ?_, fun a t h => ?_, fun a r h => ?_,
    fun _ => rfl⟩
  · rw [step_withLatency, h]; rfl
  · rw [step_withLatency, h]; rfl
  · rw [byteStep_withLatency, h]; rfl
  · rw [byteStep_withLatency, h]; rfl
  · rw [hostAct_withLatency, h]; rfl
  · rw [hostAct_withLatency, h]; rfl

end Sys2Proof.Machine
end
